-- ==== Sys2Proof/Word.lean ====
section
/-! DEFINITION. The plain data the engine works on: bytes, 32-bit words, 64-bit numbers, and the eight words of a
running hash state. Operators on them stand in Machine/Bits.lean and Machine/Operands.lean. -/

namespace Sys2Proof

/-- A byte, 8 bits (00_scope.md R8). -/
abbrev Byte := BitVec 8

/-- A word, 32 bits: `WORD` of R7 (00_scope.md R8). -/
abbrev Word := BitVec 32

/-- A 64-bit unsigned number: `LEN_BITS` and `KLEN_BITS` of R7. -/
abbrev Quad := BitVec 64

/-- The eight 32-bit words of a running hash state, `state[0]` to `state[7]` (10_state.md R20, R22).
The working variables `a` to `h` of one compression (R29) are eight words in the same order. -/
structure HashWords where
  w0 : Word
  w1 : Word
  w2 : Word
  w3 : Word
  w4 : Word
  w5 : Word
  w6 : Word
  w7 : Word
  deriving DecidableEq, Repr, Inhabited

end Sys2Proof
end

