-- ==== Sys2Proof/Syntax.lean ====
section
/-! DEFINITION. The commands. A command is the tuple of its operands (20_memory.md R51, 30_encoding.md R73), so a
constructor of `Instr` carries exactly the operands its row of R73 lists. A `Request` is what the host puts on the
command interface, before it is decoded. -/

namespace Sys2Proof

/-- The two hash variants (00_scope.md R14). -/
inductive Variant where
  | sha256
  | sha224
  deriving DecidableEq, Repr, Inhabited

/-- The ten commands of 30_encoding.md R72, each with the operands R73 gives it. `a` is operand `A` (the key or the
password), `b` is operand `B` (the data, the message or the salt). -/
inductive Instr where
  /-- `INIT`, 40_digest.md R110. -/
  | init (v : Variant)
  /-- `ABSORB`, 40_digest.md R111. -/
  | absorb (b : List Byte)
  /-- `FINALIZE`, 40_digest.md R112. -/
  | finalize
  /-- `HASH`, 40_digest.md R113. -/
  | hash (v : Variant) (b : List Byte)
  /-- `HMAC_INIT`, 41_hmac.md R135. -/
  | hmacInit (v : Variant) (a : List Byte)
  /-- `HMAC_UPDATE`, 41_hmac.md R136. -/
  | hmacUpdate (b : List Byte)
  /-- `HMAC_FINISH`, 41_hmac.md R137. -/
  | hmacFinish
  /-- `HMAC_RESET`, 41_hmac.md R138. -/
  | hmacReset
  /-- `HMAC`, 41_hmac.md R139. -/
  | hmac (v : Variant) (a b : List Byte)
  /-- `DERIVE_KEY`, 42_pbkdf2.md R154: password, salt, `ITER`, `KLEN`. -/
  | deriveKey (a b : List Byte) (iter : BitVec 32) (klen : Quad)
  deriving DecidableEq, Repr

/-- What the host presents on the command interface (20_memory.md R51): the command word, and beside it the operand
channels. A channel the command does not use is not part of the command, and what stands on it is ignored (D24). -/
structure Request where
  cmd  : Byte
  a    : List Byte
  b    : List Byte
  iter : BitVec 32
  klen : Quad
  deriving DecidableEq, Repr

end Sys2Proof
end

