-- ==== Sys2Proof/Config.lean ====
section
/-! DEFINITION. The fixed parameters of 00_scope.md R7 that are plain numbers, and the free values: what a field holds
after a command that leaves it unspecified (R15). A free value has no body, so nothing can be proved of it. -/

namespace Sys2Proof.Config

/-- `IPAD_BYTE` (R7). -/
abbrev ipadByte : Byte := 0x36

/-- `OPAD_BYTE` (R7). -/
abbrev opadByte : Byte := 0x5C

/-- `KLEN_MAX`, the largest accepted key length: 137438953440 bytes (R7, 42_pbkdf2.md R156). -/
abbrev klenMax : Nat := (2 ^ 32 - 1) * 32

/-- `STREAM_LEN_BITS`: an operand byte sequence has fewer than `2 ^ 64` bytes (R7, 20_memory.md R51). -/
abbrev streamBound : Nat := 2 ^ 64

/-- Free value (log entry 6): the `variant` field of a consumed digest context, by a counter of State. -/
opaque freeVariant : Nat → Variant

/-- Free value (log entry 6): the eight `state` words of a consumed digest context. -/
opaque freeWords : Nat → HashWords

/-- Free value (log entry 6): the `total_len` of a consumed digest context. -/
opaque freeTotalLen : Nat → Quad

/-- Free value (log entry 6): the `buffer` of a consumed digest context. -/
opaque freeBuffer : Nat → List Byte

end Sys2Proof.Config
end

