-- ==== Sys2Proof/WellFormed.lean ====
section
/-! DEFINITION. The one check on a command: an operand byte sequence has fewer than 2^64 bytes (20_memory.md R51).
The widths of `ITER` and `KLEN` are in their types. -/

namespace Sys2Proof

/-- R51: a byte-sequence operand has a length below `2 ^ 64`. -/
def streamOk (s : List Byte) : Bool := decide (s.length < Config.streamBound)

/-- The command's operands are ones the interface can carry (R51). -/
def Instr.wf : Instr → Bool
  | .init _ => true
  | .absorb b => streamOk b
  | .finalize => true
  | .hash _ b => streamOk b
  | .hmacInit _ a => streamOk a
  | .hmacUpdate b => streamOk b
  | .hmacFinish => true
  | .hmacReset => true
  | .hmac _ a b => streamOk a && streamOk b
  | .deriveKey a b _ _ => streamOk a && streamOk b

/-- What the host presents is something the interface can carry (R51). -/
def Request.wf (r : Request) : Bool := streamOk r.a && streamOk r.b

end Sys2Proof
end

