-- ==== Sys2Proof/Decode.lean ====
section
/-! DEFINITION. The decoder, total on every request, and after it the encoder, both written from the format `CMD8`
and the opcode map (30_encoding.md R70 to R74). -/

namespace Sys2Proof

/-- `CMD[7:4]`, the operation code (R70). -/
def opField (c : Byte) : BitVec 4 := c.extractLsb' 4 4

/-- `CMD[3:1]`, reserved, must be `000` (R70). -/
def rsvField (c : Byte) : BitVec 3 := c.extractLsb' 1 3

/-- `CMD[0]`, the variant bit (R70). -/
def vField (c : Byte) : Bool := c.getLsbD 0

/-- `v = 0` is SHA-256 and `v = 1` is SHA-224 (00_scope.md R14). -/
def variantOf : Bool → Variant
  | false => .sha256
  | true => .sha224

/-- The variant bit of a variant (R14). -/
def variantBit : Variant → Bool
  | .sha256 => false
  | .sha224 => true

/-- Why a command byte is illegal (R74). All three are rejected with the one status `ERR_ILLEGAL_CMD` (R172). -/
inductive Illegal where
  /-- `rsv` is not `000`. -/
  | reservedBits
  /-- `op` is `0x0` or one of `0xB` to `0xF`. -/
  | noSuchOp
  /-- `v = 1` with an `op` that takes no variant. -/
  | variantNotTaken
  deriving DecidableEq, Repr

/-- A command that takes no variant: `v` must be `0` (R70, R74). -/
def noVariant (v : Bool) (i : Instr) : Except Illegal Instr :=
  if v then .error .variantNotTaken else .ok i

/-- The opcode map of R72, with the operands R73 gives each command. -/
def decodeOp (op : BitVec 4) (v : Bool) (r : Request) : Except Illegal Instr :=
  match op.toNat with
  | 0x1 => .ok (.init (variantOf v))
  | 0x2 => noVariant v (.absorb r.b)
  | 0x3 => noVariant v .finalize
  | 0x4 => .ok (.hash (variantOf v) r.b)
  | 0x5 => .ok (.hmacInit (variantOf v) r.a)
  | 0x6 => noVariant v (.hmacUpdate r.b)
  | 0x7 => noVariant v .hmacFinish
  | 0x8 => noVariant v .hmacReset
  | 0x9 => .ok (.hmac (variantOf v) r.a r.b)
  | 0xA => noVariant v (.deriveKey r.a r.b r.iter r.klen)
  | _ => .error .noSuchOp

/-- The decoder: 14 command bytes decode to a command, 242 are illegal, by name (R74). -/
def decode (r : Request) : Except Illegal Instr :=
  if rsvField r.cmd = 0 then decodeOp (opField r.cmd) (vField r.cmd) r else .error .reservedBits

/-- The command word with the given fields (R70). -/
def cmd8 (op : BitVec 4) (v : Bool) : Byte := op ++ (0 : BitVec 3) ++ BitVec.ofBool v

/-- The encoder: the request that presents a command, with nothing on the channels it does not use (R72, R73). -/
def encode : Instr → Request
  | .init v => ⟨cmd8 0x1 (variantBit v), [], [], 0, 0⟩
  | .absorb b => ⟨cmd8 0x2 false, [], b, 0, 0⟩
  | .finalize => ⟨cmd8 0x3 false, [], [], 0, 0⟩
  | .hash v b => ⟨cmd8 0x4 (variantBit v), [], b, 0, 0⟩
  | .hmacInit v a => ⟨cmd8 0x5 (variantBit v), a, [], 0, 0⟩
  | .hmacUpdate b => ⟨cmd8 0x6 false, [], b, 0, 0⟩
  | .hmacFinish => ⟨cmd8 0x7 false, [], [], 0, 0⟩
  | .hmacReset => ⟨cmd8 0x8 false, [], [], 0, 0⟩
  | .hmac v a b => ⟨cmd8 0x9 (variantBit v), a, b, 0, 0⟩
  | .deriveKey a b iter klen => ⟨cmd8 0xA false, a, b, iter, klen⟩

/-- The 14 legal command bytes, as R72 lists them. -/
def legalBytes : List Byte :=
  [0x10, 0x11, 0x20, 0x30, 0x40, 0x41, 0x50, 0x51, 0x60, 0x70, 0x80, 0x90, 0x91, 0xA0]

/-- The request whose command word is the low byte of `w` and whose operand channels carry nothing (log entry 11):
the opcode table gives a row its 8 bits and no operand any. -/
def tableRequest (w : Nat) : Request := ⟨BitVec.ofNat 8 w, [], [], 0, 0⟩

/-- The command the decoder reads from a word numbered as spec/opcode_table.json numbers it (every row has 8 bits). -/
def decodeTableWord (_nbits w : Nat) : Option Instr :=
  match decode (tableRequest w) with
  | .ok i => some i
  | .error _ => none

end Sys2Proof
end

