-- ==== Sys2Proof/Machine/Bits.lean ====
section
/-! DEFINITION. The word operators of 00_scope.md R9. Word addition, `xor`, `and` and `or` are those of `BitVec 32`,
which wrap and drop the carry as R9 and 40_digest.md R102 say. -/

namespace Sys2Proof.Machine

/-- `shr(x, n)`: logical right shift, zeros enter at bit 31 (R9). -/
def shr (x : Word) (n : Nat) : Word := x >>> n

/-- `rotr(x, n)`, `1 <= n <= 31`: bits leaving at bit 0 re-enter at bit 31 (R9). -/
def rotr (x : Word) (n : Nat) : Word := shr x n ||| (x <<< (32 - n))

end Sys2Proof.Machine
end

