-- ==== Sys2Proof/Machine/Operands.lean ====
section
/-! DEFINITION. Byte sequences, and every place where bytes and numbers meet, all big-endian (00_scope.md R10, R11,
20_memory.md R54). The operand forms themselves are the constructors of `Instr` and the channels `decodeOp` fills them
from (30_encoding.md R73). -/

namespace Sys2Proof.Machine

/-- `DSIZE(variant)`: 32 or 28 bytes (R7, R14). -/
def dsize : Variant → Nat
  | .sha256 => 32
  | .sha224 => 28

/-- `BE32(w)` (R11). -/
def be32 (w : Word) : List Byte :=
  [w.extractLsb' 24 8, w.extractLsb' 16 8, w.extractLsb' 8 8, w.extractLsb' 0 8]

/-- `BE64(v)` (R11). -/
def be64 (v : Quad) : List Byte := be32 (v.extractLsb' 32 32) ++ be32 (v.extractLsb' 0 32)

/-- `word_be(s, k)`: bytes `4k` to `4k + 3`, first byte most significant (R11). -/
def wordBe (s : List Byte) (k : Nat) : Word :=
  s.getD (4 * k) 0 ++ s.getD (4 * k + 1) 0 ++ s.getD (4 * k + 2) 0 ++ s.getD (4 * k + 3) 0

/-- `xorbytes(s, t)` (R10). -/
def xorBytes (s t : List Byte) : List Byte := List.zipWith (· ^^^ ·) s t

/-- The first `q` blocks of a byte sequence, in order (40_digest.md R104). -/
def takeBlocks : Nat → List Byte → List (List Byte)
  | 0, _ => []
  | q + 1, p => p.take 64 :: takeBlocks q (p.drop 64)

/-- All the whole 64-byte blocks of a byte sequence, in order: there are `floor(len / 64)` (R104). -/
def wholeBlocks (p : List Byte) : List (List Byte) := takeBlocks (p.length / 64) p

/-- What is left of a byte sequence after its whole blocks: `len mod 64` bytes (R104). -/
def afterBlocks (p : List Byte) : List Byte := p.drop (64 * (p.length / 64))

end Sys2Proof.Machine
end

