-- ==== Sys2Proof/Machine/Compress.lean ====
section
/-! DEFINITION. The word functions, the message schedule, the round and the compression function (40_digest.md R91 to
R101). -/

namespace Sys2Proof.Machine

/-- `sigma0` (R91). -/
def sigma0 (x : Word) : Word := rotr x 7 ^^^ rotr x 18 ^^^ shr x 3

/-- `sigma1` (R92). -/
def sigma1 (x : Word) : Word := rotr x 17 ^^^ rotr x 19 ^^^ shr x 10

/-- `Sigma0` (R93). -/
def bigSigma0 (x : Word) : Word := rotr x 2 ^^^ rotr x 13 ^^^ rotr x 22

/-- `Sigma1` (R94). -/
def bigSigma1 (x : Word) : Word := rotr x 6 ^^^ rotr x 11 ^^^ rotr x 25

/-- `Ch` (R95). -/
def ch (x y z : Word) : Word := z ^^^ (x &&& (y ^^^ z))

/-- `Maj` (R96). -/
def maj (x y z : Word) : Word := (x &&& y) ||| (z &&& (x ||| y))

/-- The word that follows the words made so far, which are listed newest first: `W[t-k]` is at position `k - 1`
(R99). -/
def nextWord (newest : List Word) : Word :=
  sigma1 (newest.getD 1 0) + newest.getD 6 0 + sigma0 (newest.getD 14 0) + newest.getD 15 0

/-- `n` more words of the schedule, newest first. -/
def extendSchedule : Nat → List Word → List Word
  | 0, newest => newest
  | n + 1, newest => extendSchedule n (nextWord newest :: newest)

/-- `Schedule(block)`, `W[0]` first: 16 words read big-endian from the block, then 48 derived ones (R99). -/
def schedule (block : List Byte) : List Word :=
  (extendSchedule 48 ((List.range 16).map (wordBe block)).reverse).reverse

/-- `Round` with the round's constant `K[t]` and schedule word `W[t]`; `w0` to `w7` are `a` to `h` (R100). The update
is one the spec marks as general knowledge (G3, log entry 10). -/
def round (k w : Word) (s : HashWords) : HashWords :=
  let t1 := s.w7 + bigSigma1 s.w4 + ch s.w4 s.w5 s.w6 + k + w
  let t2 := bigSigma0 s.w0 + maj s.w0 s.w1 s.w2
  ⟨t1 + t2, s.w0, s.w1, s.w2, s.w3 + t1, s.w4, s.w5, s.w6⟩

/-- The rounds, in order, one for each pair `(K[t], W[t])` (R101). -/
def rounds (kws : List (Word × Word)) (s : HashWords) : HashWords :=
  kws.foldl (fun s kw => round kw.1 kw.2 s) s

/-- The word-by-word sum mod `2 ^ 32` of the last line of R101. -/
def addWords (x y : HashWords) : HashWords :=
  ⟨x.w0 + y.w0, x.w1 + y.w1, x.w2 + y.w2, x.w3 + y.w3, x.w4 + y.w4, x.w5 + y.w5, x.w6 + y.w6, x.w7 + y.w7⟩

/-- `Compress(H, block)` (R101). -/
def compress (h : HashWords) (block : List Byte) : HashWords :=
  addWords h (rounds (roundConstants.zip (schedule block)) h)

end Sys2Proof.Machine
end

