-- ==== Sys2Proof/Machine/State.lean ====
section
/-! DEFINITION. The machine's state as plain data: the two contexts of 10_state.md, and beside them the host's side of
the command interface (the moves still to come, the responses delivered) and the counter that free values are drawn
by. -/

namespace Sys2Proof.Machine

/-- A digest context value (10_state.md R20). `buffer` holds its valid bytes `buffer[0 .. buffer_len-1]` only: the
bytes past them hold no value (U8), so they are not stored, and `buffer_len` is the list's length (log entry 7). -/
structure DigestCtx where
  variant  : Variant
  state    : HashWords
  totalLen : Quad
  buffer   : List Byte
  deriving DecidableEq, Repr

/-- `DCTX.phase` (R23). -/
inductive DigestPhase where
  | idle
  | active
  deriving DecidableEq, Repr

/-- `DCTX`: one digest context value and its phase (R23). -/
structure Dctx where
  phase : DigestPhase
  ctx   : DigestCtx
  deriving DecidableEq, Repr

/-- `HCTX.phase` (R27). -/
inductive HmacPhase where
  | idle
  | active
  | finished
  deriving DecidableEq, Repr

/-- `HCTX`: the HMAC context (R25). -/
structure Hctx where
  phase   : HmacPhase
  variant : Variant
  ipad    : List Byte
  opad    : List Byte
  inner   : DigestCtx
  deriving DecidableEq, Repr

/-- The five status values of 60_exceptions.md R171. No other is ever returned (U11). -/
inductive Status where
  | ok
  | errIllegalCmd
  | errSequence
  | errIterZero
  | errLengthRange
  deriving DecidableEq, Repr

/-- A response: a status and an output byte sequence (30_encoding.md R79). -/
structure Response where
  status : Status
  out    : List Byte
  deriving DecidableEq, Repr

/-- What the host can do to the engine: present a command (20_memory.md R51) or reset it between commands
(70_reset_and_hazards.md R191). -/
inductive HostMove where
  | command (r : Request)
  | reset
  deriving DecidableEq, Repr

/-- The engine and its command interface. `dctx` and `hctx` are the engine's whole architectural state. `freeCount`
(log entry 6), `moves` (log entry 1) and `responses` (log entry 2) are the model's own. -/
structure State where
  dctx      : Dctx
  hctx      : Hctx
  freeCount : Nat
  moves     : List HostMove
  responses : List Response
  deriving DecidableEq, Repr

/-- The engine has no fault: every exceptional event is the synchronous rejection of a command, after which the
engine goes on (60_exceptions.md R170, R176, R201). -/
inductive Fault where
  deriving DecidableEq, Repr

/-- Why the model has no meaning for a command. -/
inductive Refusal where
  /-- Raised by an arm of `exec` whose command has no meaning yet: safe. No arm raises it. -/
  | notModelled (mnemonic : String)
  deriving DecidableEq, Repr

/-- The outcome of a command. -/
abbrev Result := Host.Outcome State Fault Refusal

/-- The value an unspecified digest context holds at reset (log entry 4: DESIGN CHOICE, the spec gives none). -/
def DigestCtx.atReset : DigestCtx := ⟨.sha256, ⟨0, 0, 0, 0, 0, 0, 0, 0⟩, 0, []⟩

/-- `DCTX` after reset: phase `IDLE` (R36). The other fields are log entry 4's. -/
def Dctx.atReset : Dctx := ⟨.idle, DigestCtx.atReset⟩

/-- `HCTX` after reset: phase `IDLE` (R36). The other fields are log entry 4's. -/
def Hctx.atReset : Hctx :=
  ⟨.idle, .sha256, List.replicate 64 0, List.replicate 64 0, DigestCtx.atReset⟩

/-- The machine right after reset (10_state.md R36, 70_reset_and_hazards.md R190): both phases `IDLE`, no move of the
host's made, no response delivered. -/
def State.reset : State := ⟨Dctx.atReset, Hctx.atReset, 0, [], []⟩

end Sys2Proof.Machine
end

