-- ==== Sys2Proof/Machine/Context.lean ====
section
/-! DEFINITION. The pure functions on digest context values, and the one-shot hash (40_digest.md R103 to R109). -/

namespace Sys2Proof.Machine

/-- `CtxInit(variant)` (R103): no byte of the buffer is valid. -/
def ctxInit (v : Variant) : DigestCtx := ⟨v, initialHash v, 0, []⟩

/-- `CtxAbsorb(ctx, data)` (R104): the whole blocks of the buffered bytes and the new ones are compressed in order,
and the rest is buffered. -/
def ctxAbsorb (c : DigestCtx) (data : List Byte) : DigestCtx :=
  { variant := c.variant
    state := (wholeBlocks (c.buffer ++ data)).foldl compress c.state
    totalLen := c.totalLen + BitVec.ofNat 64 data.length
    buffer := afterBlocks (c.buffer ++ data) }

/-- The number `z` of zero bytes of the padding: `(55 - buffer_len) mod 64` (R106). -/
def padZeros (bufferLen : Nat) : Nat := ((55 - (bufferLen : Int)) % 64).toNat

/-- `Pad(buffer_len, total_len)` (R106). The trailer is the low 64 bits of the bit count (R114). -/
def pad (bufferLen : Nat) (totalLen : Quad) : List Byte :=
  0x80 :: (List.replicate (padZeros bufferLen) 0 ++ be64 (totalLen * 8))

/-- The eight final words as 32 bytes (R108, which the spec marks as general knowledge: G4, log entry 10). -/
def serialise (s : HashWords) : List Byte :=
  be32 s.w0 ++ be32 s.w1 ++ be32 s.w2 ++ be32 s.w3 ++ be32 s.w4 ++ be32 s.w5 ++ be32 s.w6 ++ be32 s.w7

/-- The bytes that finalize compresses: what is buffered, and the padding (R107). -/
def lastBytes (c : DigestCtx) : List Byte := c.buffer ++ pad c.buffer.length c.totalLen

/-- `CtxFinalize(ctx)`: the digest, `DSIZE(ctx.variant)` bytes (R107). -/
def ctxFinalize (c : DigestCtx) : List Byte :=
  (serialise ((wholeBlocks (lastBytes c)).foldl compress c.state)).take (dsize c.variant)

/-- `Hash(m, variant)` (R109). -/
def hashFn (m : List Byte) (v : Variant) : List Byte := ctxFinalize (ctxAbsorb (ctxInit v) m)

end Sys2Proof.Machine
end

