-- ==== Sys2Proof/Machine/Flags.lean ====
section
/-! DEFINITION. The engine has no flags (10_state.md R31). What a command reports is its status: its code, and the
checks that decide it. Each check answers the status to reject with, or nothing where the command may run. -/

namespace Sys2Proof.Machine

/-- The 8-bit status code (60_exceptions.md R171). -/
def Status.code : Status → BitVec 8
  | .ok => 0x00
  | .errIllegalCmd => 0x01
  | .errSequence => 0x02
  | .errIterZero => 0x03
  | .errLengthRange => 0x04

/-- `ABSORB` and `FINALIZE` need `DCTX` to be `ACTIVE` (R173). -/
def digestCheck : DigestPhase → Option Status
  | .active => none
  | .idle => some .errSequence

/-- `HMAC_UPDATE` and `HMAC_FINISH` need `HCTX` to be `ACTIVE` (R173). -/
def macCheck : HmacPhase → Option Status
  | .active => none
  | .idle => some .errSequence
  | .finished => some .errSequence

/-- `HMAC_RESET` needs a key: any phase but `IDLE` (R173). -/
def keyCheck : HmacPhase → Option Status
  | .active => none
  | .idle => some .errSequence
  | .finished => none

/-- `DERIVE_KEY`: a zero count comes before a length out of range (R174, R175, R177). -/
def deriveCheck (iter : BitVec 32) (klen : Quad) : Option Status :=
  if iter = 0 then some .errIterZero
  else if Config.klenMax < klen.toNat then some .errLengthRange
  else none

end Sys2Proof.Machine
end

