-- ==== Sys2Proof/Machine/Ops.lean ====
section
/-! DEFINITION. The shared operations over State: writing a context, delivering a response, rejecting a command (the
engine's trap entry), and the values a consumed context is left with. There is no return from a rejection: it is over
when its response is delivered (60_exceptions.md R180). -/

namespace Sys2Proof.Machine

/-- Write `DCTX`. -/
def State.withDctx (d : Dctx) (s : State) : State := { s with dctx := d }

/-- Write `HCTX`. -/
def State.withHctx (h : Hctx) (s : State) : State := { s with hctx := h }

/-- The host's moves still to come. -/
def State.withMoves (m : List HostMove) (s : State) : State := { s with moves := m }

/-- Deliver a response: one per command, in order (20_memory.md R60, 60_exceptions.md R171). -/
def State.deliver (r : Response) (s : State) : State := { s with responses := s.responses ++ [r] }

/-- The next free value is another one. -/
def State.drawFree (s : State) : State := { s with freeCount := s.freeCount + 1 }

/-- A digest context value every field of which is unspecified (00_scope.md R15): all free values, within R20's bound
of at most 63 buffered bytes (log entry 6). -/
def freeDigestCtx (n : Nat) : DigestCtx :=
  ⟨Config.freeVariant n, Config.freeWords n, Config.freeTotalLen n, (Config.freeBuffer n).take 63⟩

/-- `Out(s); STATUS = OK`: the command completes (20_memory.md R53). -/
def complete (out : List Byte) (s : State) : Result := .next (s.deliver ⟨.ok, out⟩)

/-- The engine's trap entry (60_exceptions.md R176): the rejected command writes no field of `DCTX` or `HCTX`, returns
its status and an empty output, and leaves the engine ready for the next command. -/
def reject (st : Status) (s : State) : Result := .next (s.deliver ⟨st, []⟩)

/-- A command's check comes before everything it writes (R176): reject, or run it. -/
def checked (check : Option Status) (s : State) (run : Result) : Result :=
  match check with
  | some st => reject st s
  | none => run

/-- Reset (70_reset_and_hazards.md R190): both contexts hold what they hold after reset. The model's own fields are
no part of the engine and stay (log entry 5). -/
def hostReset (s : State) : Result := .next ((s.withDctx Dctx.atReset).withHctx Hctx.atReset)

end Sys2Proof.Machine
end

