-- ==== Sys2Proof/Machine/Digest.lean ====
section
/-! DEFINITION. The four digest commands (40_digest.md R110 to R113). -/

namespace Sys2Proof.Machine

/-- `INIT` (R110): legal in both phases; the computation in progress, if any, is discarded. -/
def execInit (v : Variant) (s : State) : Result :=
  complete [] (s.withDctx ⟨.active, ctxInit v⟩)

/-- `ABSORB` (R111). -/
def execAbsorb (b : List Byte) (s : State) : Result :=
  checked (digestCheck s.dctx.phase) s (complete [] (s.withDctx ⟨.active, ctxAbsorb s.dctx.ctx b⟩))

/-- `FINALIZE` (R112): the digest, after which every field of `DCTX` but the phase is unspecified. -/
def execFinalize (s : State) : Result :=
  checked (digestCheck s.dctx.phase) s
    (complete (ctxFinalize s.dctx.ctx) (s.withDctx ⟨.idle, freeDigestCtx s.freeCount⟩).drawFree)

/-- `HASH` (R113): neither context is read or written. -/
def execHash (v : Variant) (b : List Byte) (s : State) : Result := complete (hashFn b v) s

end Sys2Proof.Machine
end

