-- ==== Sys2Proof/Machine/Hmac.lean ====
section
/-! DEFINITION. The HMAC construction (41_hmac.md R131 to R134) and its five commands (R135 to R139). -/

namespace Sys2Proof.Machine

/-- The key as the pads use it: hashed when it is longer than one block, then zero-extended to 64 bytes (`k64` of
R131). A key of exactly 64 bytes is used as is (90_conflicts.md C6). -/
def blockKey (key : List Byte) (v : Variant) : List Byte :=
  let k := if key.length > 64 then hashFn key v else key
  k ++ List.replicate (64 - k.length) 0

/-- The `ipad` of `HmacKeyPads(key, variant)` (R131). -/
def keyIpad (key : List Byte) (v : Variant) : List Byte := (blockKey key v).map (Config.ipadByte ^^^ ·)

/-- The `opad` of `HmacKeyPads(key, variant)` (R131). -/
def keyOpad (key : List Byte) (v : Variant) : List Byte := (blockKey key v).map (Config.opadByte ^^^ ·)

/-- `HmacStart(ipad, variant)` (R132). -/
def hmacStart (ipad : List Byte) (v : Variant) : DigestCtx := ctxAbsorb (ctxInit v) ipad

/-- `HmacFinishFn(inner, opad, variant)` (R133): the outer hash runs in a fresh context, `opad` first. -/
def hmacFinishFn (inner : DigestCtx) (opad : List Byte) (v : Variant) : List Byte :=
  ctxFinalize (ctxAbsorb (ctxAbsorb (ctxInit v) opad) (ctxFinalize inner))

/-- `HmacFn(key, msg, variant)` (R134). -/
def hmacFn (key msg : List Byte) (v : Variant) : List Byte :=
  hmacFinishFn (ctxAbsorb (hmacStart (keyIpad key v) v) msg) (keyOpad key v) v

/-- `HMAC_INIT` (R135): legal in all three phases; the old key and computation are discarded. -/
def execHmacInit (v : Variant) (a : List Byte) (s : State) : Result :=
  complete [] (s.withHctx ⟨.active, v, keyIpad a v, keyOpad a v, hmacStart (keyIpad a v) v⟩)

/-- `HMAC_UPDATE` (R136). -/
def execHmacUpdate (b : List Byte) (s : State) : Result :=
  checked (macCheck s.hctx.phase) s
    (complete [] (s.withHctx { s.hctx with inner := ctxAbsorb s.hctx.inner b }))

/-- `HMAC_FINISH` (R137): the MAC, after which `HCTX.inner` is unspecified and the variant and the pads are kept. -/
def execHmacFinish (s : State) : Result :=
  checked (macCheck s.hctx.phase) s
    (complete (hmacFinishFn s.hctx.inner s.hctx.opad s.hctx.variant)
      (s.withHctx { s.hctx with phase := .finished, inner := freeDigestCtx s.freeCount }).drawFree)

/-- `HMAC_RESET` (R138): a new computation under the key already loaded. -/
def execHmacReset (s : State) : Result :=
  checked (keyCheck s.hctx.phase) s
    (complete []
      (s.withHctx { s.hctx with phase := .active, inner := hmacStart s.hctx.ipad s.hctx.variant }))

/-- `HMAC` (R139): neither context is read or written. -/
def execHmac (v : Variant) (a b : List Byte) (s : State) : Result := complete (hmacFn a b v) s

end Sys2Proof.Machine
end

