-- ==== Sys2Proof/Machine/Kdf.lean ====
section
/-! DEFINITION. PBKDF2 over HMAC-SHA-256 (42_pbkdf2.md R150 to R153) and `DERIVE_KEY` (R154). -/

namespace Sys2Proof.Machine

/-- The loop of R152: `n` more rounds from the previous `U` and the running xor `T`. -/
def pbkdfLoop (password : List Byte) : Nat → List Byte → List Byte → List Byte
  | 0, _, t => t
  | n + 1, u, t =>
    let u' := hmacFn password u .sha256
    pbkdfLoop password n u' (xorBytes t u')

/-- The first message of block `i`: the salt and directly after it `BE32(i)` (R152). -/
def blockMessage (salt : List Byte) (i : Nat) : List Byte := salt ++ be32 (BitVec.ofNat 32 i)

/-- `PbkdfBlock(P, S, c, i)`, for `c >= 1`: the password is the key, the hash is SHA-256 always (R151, R152). -/
def pbkdfBlock (password salt : List Byte) (c i : Nat) : List Byte :=
  let u := hmacFn password (blockMessage salt i) .sha256
  pbkdfLoop password (c - 1) u u

/-- `Pbkdf2(P, S, c, L)`: blocks `1` to `ceil(L / 32)`, cut at `L` bytes (R153). -/
def pbkdf2 (password salt : List Byte) (c len : Nat) : List Byte :=
  ((List.range ((len + 31) / 32)).flatMap fun k => pbkdfBlock password salt c (k + 1)).take len

/-- `DERIVE_KEY` (R154): neither context is read or written; no key is returned on a rejection. -/
def execDeriveKey (a b : List Byte) (iter : BitVec 32) (klen : Quad) (s : State) : Result :=
  checked (deriveCheck iter klen) s (complete (pbkdf2 a b iter.toNat klen.toNat) s)

end Sys2Proof.Machine
end

