-- ==== Sys2Proof/Machine/Dispatch.lean ====
section
/-! DEFINITION. One command, dispatched to its meaning: one arm per row of spec/opcode_table.json. -/

namespace Sys2Proof.Machine

def exec (i : Instr) (s : State) : Host.Outcome State Fault Refusal :=
  match i with
  | .init v => Sys2Proof.Machine.execInit v s
  | .absorb b => Sys2Proof.Machine.execAbsorb b s
  | .finalize => Sys2Proof.Machine.execFinalize s
  | .hash v b => Sys2Proof.Machine.execHash v b s
  | .hmacInit v a => Sys2Proof.Machine.execHmacInit v a s
  | .hmacUpdate b => Sys2Proof.Machine.execHmacUpdate b s
  | .hmacFinish => Sys2Proof.Machine.execHmacFinish s
  | .hmacReset => Sys2Proof.Machine.execHmacReset s
  | .hmac v a b => Sys2Proof.Machine.execHmac v a b s
  | .deriveKey a b iter klen => Sys2Proof.Machine.execDeriveKey a b iter klen s

end Sys2Proof.Machine
end

