-- ==== Sys2Proof/Machine/Present.lean ====
section
/-! DEFINITION. How the engine takes the host's next move. -/

namespace Sys2Proof.Machine

/-- Decode first, then run: a byte that encodes no command is rejected, whatever its operands (60_exceptions.md R172,
R177). -/
def runRequest (r : Request) (s : State) : Result :=
  match decode r with
  | .ok i => exec i s
  | .error _ => reject .errIllegalCmd s

/-- The engine takes the host's next move, or waits for one (70_reset_and_hazards.md R190, R191, 20_memory.md R60). -/
def takeMove (s : State) : Result :=
  match s.moves with
  | [] => .next s
  | .command r :: rest => runRequest r (s.withMoves rest)
  | .reset :: rest => hostReset (s.withMoves rest)

/-- The host presents a request before the moves it already had to make. -/
def State.present (r : Request) (s : State) : State := s.withMoves (.command r :: s.moves)

end Sys2Proof.Machine
end

