-- ==== Sys2Proof/Machine/Step.lean ====
section
/-! DEFINITION. One step of the machine: the engine takes the host's next move and runs it to completion
(00_scope.md R6). -/

namespace Sys2Proof.Machine

/-- One step. -/
def step (s : State) : Host.Outcome State Fault Refusal := takeMove s

/-- The host presents the command word `w`, with nothing on the operand channels, as its very next move (log entries 1
and 11). -/
def State.withFetchWord (s : State) (_nbits w : Nat) : State := s.present (tableRequest w)

end Sys2Proof.Machine
end

