-- ==== Sys2Proof/Machine/Work.lean ====
section
/-! DEFINITION. The amount of work of a command (70_reset_and_hazards.md R200, 42_pbkdf2.md R161): every function
between a command and `Compress` once more, its value beside the number of evaluations that it took. No rule depends
on these counts and no step reads them. That the values are those of the functions themselves is in Laws/Work.lean. -/

namespace Sys2Proof.Machine

/-- A value, and how many evaluations of `Compress` and of `HmacFn` gave it. -/
structure Counted (α : Type) where
  value        : α
  compressions : Nat
  macs         : Nat
  deriving DecidableEq, Repr

variable {α β : Type}

/-- A value that takes no evaluation. -/
def Counted.given (a : α) : Counted α := ⟨a, 0, 0⟩

/-- A value, and then what is computed from it: the counts add up. -/
def Counted.andThen (x : Counted α) (f : α → Counted β) : Counted β :=
  ⟨(f x.value).value, x.compressions + (f x.value).compressions, x.macs + (f x.value).macs⟩

/-- What is made of a value by no evaluation. -/
def Counted.map (f : α → β) (x : Counted α) : Counted β := ⟨f x.value, x.compressions, x.macs⟩

/-- The value of one evaluation of `HmacFn`. -/
def Counted.asMac (x : Counted α) : Counted α := { x with macs := x.macs + 1 }

/-- `Compress`: one evaluation (R101). -/
def countedCompress (h : HashWords) (block : List Byte) : Counted HashWords := ⟨compress h block, 1, 0⟩

/-- `Compress` folded over blocks. -/
def countedFold : HashWords → List (List Byte) → Counted HashWords
  | h, [] => .given h
  | h, b :: bs => (countedCompress h b).andThen fun h' => countedFold h' bs

/-- `CtxAbsorb` (R104). -/
def countedAbsorb (c : DigestCtx) (data : List Byte) : Counted DigestCtx :=
  (countedFold c.state (wholeBlocks (c.buffer ++ data))).map fun words =>
    { variant := c.variant
      state := words
      totalLen := c.totalLen + BitVec.ofNat 64 data.length
      buffer := afterBlocks (c.buffer ++ data) }

/-- `CtxFinalize` (R107). -/
def countedFinalize (c : DigestCtx) : Counted (List Byte) :=
  (countedFold c.state (wholeBlocks (lastBytes c))).map fun words => (serialise words).take (dsize c.variant)

/-- `Hash` (R109). -/
def countedHash (m : List Byte) (v : Variant) : Counted (List Byte) :=
  (countedAbsorb (ctxInit v) m).andThen countedFinalize

/-- `k64` of `HmacKeyPads` (41_hmac.md R131). -/
def countedBlockKey (key : List Byte) (v : Variant) : Counted (List Byte) :=
  (if key.length > 64 then countedHash key v else .given key).map fun k => k ++ List.replicate (64 - k.length) 0

/-- `HmacStart` (R132). -/
def countedStart (ipad : List Byte) (v : Variant) : Counted DigestCtx := countedAbsorb (ctxInit v) ipad

/-- `HmacFinishFn` (R133). -/
def countedFinish (inner : DigestCtx) (opad : List Byte) (v : Variant) : Counted (List Byte) :=
  (countedFinalize inner).andThen fun digest =>
    (countedAbsorb (ctxInit v) opad).andThen fun outer =>
      (countedAbsorb outer digest).andThen countedFinalize

/-- `HmacFn` (R134). -/
def countedHmac (key msg : List Byte) (v : Variant) : Counted (List Byte) :=
  ((countedBlockKey key v).andThen fun k64 =>
    (countedStart (k64.map (Config.ipadByte ^^^ ·)) v).andThen fun start =>
      (countedAbsorb start msg).andThen fun inner =>
        countedFinish inner (k64.map (Config.opadByte ^^^ ·)) v).asMac

/-- The loop of `PbkdfBlock` (42_pbkdf2.md R152). -/
def countedLoop (password : List Byte) : Nat → List Byte → List Byte → Counted (List Byte)
  | 0, _, t => .given t
  | n + 1, u, t => (countedHmac password u .sha256).andThen fun u' => countedLoop password n u' (xorBytes t u')

/-- `PbkdfBlock` (R152). -/
def countedBlock (password salt : List Byte) (c i : Nat) : Counted (List Byte) :=
  (countedHmac password (blockMessage salt i) .sha256).andThen fun u => countedLoop password (c - 1) u u

/-- Blocks one after another, by their numbers less one (R153). -/
def countedBlocks (password salt : List Byte) (c : Nat) : List Nat → Counted (List Byte)
  | [] => .given []
  | k :: ks => (countedBlock password salt c (k + 1)).andThen fun t =>
      (countedBlocks password salt c ks).map fun rest => t ++ rest

/-- `Pbkdf2` (R153). -/
def countedPbkdf2 (password salt : List Byte) (c len : Nat) : Counted (List Byte) :=
  (countedBlocks password salt c (List.range ((len + 31) / 32))).map fun key => key.take len

/-- A rejected command evaluates nothing (60_exceptions.md R176). -/
def countedChecked (check : Option Status) (s : State) (run : Counted Result) : Counted Result :=
  match check with
  | some st => .given (reject st s)
  | none => run

/-- Every command. -/
def countedExec (i : Instr) (s : State) : Counted Result :=
  match i with
  | .init v => .given (complete [] (s.withDctx ⟨.active, ctxInit v⟩))
  | .absorb b => countedChecked (digestCheck s.dctx.phase) s
      ((countedAbsorb s.dctx.ctx b).map fun c => complete [] (s.withDctx ⟨.active, c⟩))
  | .finalize => countedChecked (digestCheck s.dctx.phase) s
      ((countedFinalize s.dctx.ctx).map fun digest =>
        complete digest (s.withDctx ⟨.idle, freeDigestCtx s.freeCount⟩).drawFree)
  | .hash v b => (countedHash b v).map fun digest => complete digest s
  | .hmacInit v a => (countedBlockKey a v).andThen fun k64 =>
      (countedStart (k64.map (Config.ipadByte ^^^ ·)) v).map fun inner =>
        complete [] (s.withHctx ⟨.active, v, k64.map (Config.ipadByte ^^^ ·), k64.map (Config.opadByte ^^^ ·), inner⟩)
  | .hmacUpdate b => countedChecked (macCheck s.hctx.phase) s
      ((countedAbsorb s.hctx.inner b).map fun c => complete [] (s.withHctx { s.hctx with inner := c }))
  | .hmacFinish => countedChecked (macCheck s.hctx.phase) s
      ((countedFinish s.hctx.inner s.hctx.opad s.hctx.variant).map fun mac =>
        complete mac
          (s.withHctx { s.hctx with phase := .finished, inner := freeDigestCtx s.freeCount }).drawFree)
  | .hmacReset => countedChecked (keyCheck s.hctx.phase) s
      ((countedStart s.hctx.ipad s.hctx.variant).map fun c =>
        complete [] (s.withHctx { s.hctx with phase := .active, inner := c }))
  | .hmac v a b => (countedHmac a b v).map fun mac => complete mac s
  | .deriveKey a b iter klen => countedChecked (deriveCheck iter klen) s
      ((countedPbkdf2 a b iter.toNat klen.toNat).map fun key => complete key s)

end Sys2Proof.Machine
end

