-- ==== Sys2Proof/Safety.lean ====
section
/-! DEFINITION. The terms claims are stated in: the invariant of a sound machine, the states that hold the same in
every specified field, and a sequence of commands run one after another. -/

namespace Sys2Proof.Machine

/-- `buffer_len` is at most 63 (10_state.md R20, R21). -/
def DigestCtx.Bounded (c : DigestCtx) : Prop := c.buffer.length < 64

/-- `buffer_len = total_len mod 64`, which R21 derives for a context that is in use. -/
def DigestCtx.Counted (c : DigestCtx) : Prop := c.buffer.length = c.totalLen.toNat % 64

/-- A move of the host's is one it can make: its operands fit the interface (20_memory.md R51). -/
def HostMove.wf : HostMove → Bool
  | .command r => r.wf
  | .reset => true

/-- The invariant that every step keeps. -/
structure State.Inv (s : State) : Prop where
  /-- R20, in every phase. -/
  digestBounded : s.dctx.ctx.Bounded
  /-- R20, in every phase. -/
  innerBounded : s.hctx.inner.Bounded
  /-- R25: the pads are 64 bytes, in every phase. -/
  ipadLength : s.hctx.ipad.length = 64
  /-- R25. -/
  opadLength : s.hctx.opad.length = 64
  /-- R21. -/
  digestCounted : s.dctx.phase = .active → s.dctx.ctx.Counted
  /-- R21. -/
  innerCounted : s.hctx.phase = .active → s.hctx.inner.Counted
  /-- R25: the two variants are equal while `HCTX` is `ACTIVE`. -/
  sameVariant : s.hctx.phase = .active → s.hctx.inner.variant = s.hctx.variant
  /-- 41_hmac.md R131: both pads come from one key block. -/
  onePadKey : s.hctx.phase ≠ .idle →
    ∃ k64 : List Byte, s.hctx.ipad = k64.map (Config.ipadByte ^^^ ·) ∧ s.hctx.opad = k64.map (Config.opadByte ^^^ ·)
  /-- R51. -/
  movesWf : ∀ m ∈ s.moves, m.wf = true

/-- The contexts in use hold messages. -/
structure State.Streams (s : State) : Prop where
  /-- `DCTX` in use is what absorbing one message into a fresh context gives (R21, 20_memory.md R65). -/
  digest : s.dctx.phase = .active → ∃ v m, s.dctx.ctx = ctxAbsorb (ctxInit v) m
  /-- The pads are those of some key for `HCTX.variant` (41_hmac.md R131, R25). -/
  pads : s.hctx.phase ≠ .idle →
    ∃ key, s.hctx.ipad = keyIpad key s.hctx.variant ∧ s.hctx.opad = keyOpad key s.hctx.variant
  /-- `HCTX.inner` in use has absorbed `ipad` and then one message (R25). -/
  inner : s.hctx.phase = .active → ∃ m, s.hctx.inner = ctxAbsorb (hmacStart s.hctx.ipad s.hctx.variant) m

/-- The same `DCTX` in every specified field: the phase, and in `ACTIVE` all the others (R23). -/
def Dctx.Agrees (d e : Dctx) : Prop := d.phase = e.phase ∧ (d.phase = .active → d.ctx = e.ctx)

/-- The same `HCTX` in every specified field: the phase, the variant and the pads unless `IDLE`, and `inner` in
`ACTIVE` (R27). -/
def Hctx.Agrees (g h : Hctx) : Prop :=
  g.phase = h.phase ∧
  (g.phase ≠ .idle → g.variant = h.variant ∧ g.ipad = h.ipad ∧ g.opad = h.opad) ∧
  (g.phase = .active → g.inner = h.inner)

/-- The same machine in every specified field, to the same host. The counter of free values is not compared. -/
def State.Agrees (s t : State) : Prop :=
  s.dctx.Agrees t.dctx ∧ s.hctx.Agrees t.hctx ∧ s.moves = t.moves ∧ s.responses = t.responses

/-- Commands executed one at a time, each to completion, in order (20_memory.md R60). -/
def execAll : List Instr → State → Result
  | [], s => .next s
  | i :: is, s =>
    match exec i s with
    | .next t => execAll is t
    | .fault f => .fault f
    | .refused r => .refused r

/-- The three commands that touch `DCTX` (10_state.md R24). -/
def usesDctx : Instr → Bool
  | .init _ => true
  | .absorb _ => true
  | .finalize => true
  | .hash _ _ => false
  | .hmacInit _ _ => false
  | .hmacUpdate _ => false
  | .hmacFinish => false
  | .hmacReset => false
  | .hmac _ _ _ => false
  | .deriveKey _ _ _ _ => false

/-- The four commands that touch `HCTX` (R28). -/
def usesHctx : Instr → Bool
  | .init _ => false
  | .absorb _ => false
  | .finalize => false
  | .hash _ _ => false
  | .hmacInit _ _ => true
  | .hmacUpdate _ => true
  | .hmacFinish => true
  | .hmacReset => true
  | .hmac _ _ _ => false
  | .deriveKey _ _ _ _ => false

end Sys2Proof.Machine
end

