-- ==== Sys2Proof/Certificates/Slice0/Obligations.lean ====
section
/-! DEFINITION. The statements about the machine. The helpers they are written with come first, each of them the
spec's own words or table; then one definition for each statement, family by family. -/

namespace Sys2Proof.Claims

open Sys2Proof.Machine

/-- Every request with this command byte decodes to the command `i` makes of its operands. -/
def Presents (c : Byte) (i : Request → Instr) : Prop := ∀ r : Request, r.cmd = c → decode r = .ok (i r)

/-- The machine after a command that only responds. -/
def responded (s : State) (st : Status) (out : List Byte) : State :=
  { s with responses := s.responses ++ [⟨st, out⟩] }

/-- Bytes `64k` to `64k + 63` of a byte sequence. -/
def block (p : List Byte) (k : Nat) : List Byte := (p.drop (64 * k)).take 64

/-- `Compress` folded over the first `q` blocks of a byte sequence, in order. -/
def foldBlocks (h : HashWords) (p : List Byte) (q : Nat) : HashWords :=
  (List.range q).foldl (fun s k => compress s (block p k)) h

/-- The eight words in index order. -/
def wordList (s : HashWords) : List Word := [s.w0, s.w1, s.w2, s.w3, s.w4, s.w5, s.w6, s.w7]

/-- A byte sequence read as a big-endian number. -/
def beValue (s : List Byte) : Nat := s.foldl (fun n b => 256 * n + b.toNat) 0

/-- Column `A` of the operand table of R73. -/
def takesA : Instr → Bool
  | .init _ => false
  | .absorb _ => false
  | .finalize => false
  | .hash _ _ => false
  | .hmacInit _ _ => true
  | .hmacUpdate _ => false
  | .hmacFinish => false
  | .hmacReset => false
  | .hmac _ _ _ => true
  | .deriveKey _ _ _ _ => true

/-- Column `B` of R73. -/
def takesB : Instr → Bool
  | .init _ => false
  | .absorb _ => true
  | .finalize => false
  | .hash _ _ => true
  | .hmacInit _ _ => false
  | .hmacUpdate _ => true
  | .hmacFinish => false
  | .hmacReset => false
  | .hmac _ _ _ => true
  | .deriveKey _ _ _ _ => true

/-- Columns `ITER` and `KLEN` of R73. -/
def takesNumbers : Instr → Bool
  | .init _ => false
  | .absorb _ => false
  | .finalize => false
  | .hash _ _ => false
  | .hmacInit _ _ => false
  | .hmacUpdate _ => false
  | .hmacFinish => false
  | .hmacReset => false
  | .hmac _ _ _ => false
  | .deriveKey _ _ _ _ => true

/-- What of a request belongs to the command: the command word, and the operands R73 gives it. -/
def carried (i : Instr) (r : Request) : Request :=
  ⟨r.cmd, if takesA i then r.a else [], if takesB i then r.b else [],
    if takesNumbers i then r.iter else 0, if takesNumbers i then r.klen else 0⟩

/-- The bytes of a digest (R14, R53). -/
def digestBytes : Variant → Nat
  | .sha256 => 32
  | .sha224 => 28

/-- The last column of R73: the length of `OUT` on `OK`. -/
def outLength (s : State) : Instr → Nat
  | .init _ => 0
  | .absorb _ => 0
  | .finalize => digestBytes s.dctx.ctx.variant
  | .hash v _ => digestBytes v
  | .hmacInit _ _ => 0
  | .hmacUpdate _ => 0
  | .hmacFinish => digestBytes s.hctx.variant
  | .hmacReset => 0
  | .hmac v _ _ => digestBytes v
  | .deriveKey _ _ _ klen => klen.toNat

/-- The command and phase pairs of R173. -/
def OutOfPhase (s : State) : Instr → Prop
  | .init _ => False
  | .absorb _ => s.dctx.phase = .idle
  | .finalize => s.dctx.phase = .idle
  | .hash _ _ => False
  | .hmacInit _ _ => False
  | .hmacUpdate _ => s.hctx.phase = .idle ∨ s.hctx.phase = .finished
  | .hmacFinish => s.hctx.phase = .idle ∨ s.hctx.phase = .finished
  | .hmacReset => s.hctx.phase = .idle
  | .hmac _ _ _ => False
  | .deriveKey _ _ _ _ => False

/-- The table of R24: the phase after and the status, for the three commands that touch `DCTX`. -/
def digestTable : Instr → DigestPhase → Option (DigestPhase × Status)
  | .init _, .idle => some (.active, .ok)
  | .init _, .active => some (.active, .ok)
  | .absorb _, .active => some (.active, .ok)
  | .absorb _, .idle => some (.idle, .errSequence)
  | .finalize, .active => some (.idle, .ok)
  | .finalize, .idle => some (.idle, .errSequence)
  | _, _ => none

/-- The table of R28, for the four commands that touch `HCTX`. -/
def macTable : Instr → HmacPhase → Option (HmacPhase × Status)
  | .hmacInit _ _, _ => some (.active, .ok)
  | .hmacUpdate _, .active => some (.active, .ok)
  | .hmacUpdate _, .idle => some (.idle, .errSequence)
  | .hmacUpdate _, .finished => some (.finished, .errSequence)
  | .hmacFinish, .active => some (.finished, .ok)
  | .hmacFinish, .idle => some (.idle, .errSequence)
  | .hmacFinish, .finished => some (.finished, .errSequence)
  | .hmacReset, .active => some (.active, .ok)
  | .hmacReset, .finished => some (.active, .ok)
  | .hmacReset, .idle => some (.idle, .errSequence)
  | _, _ => none

/-- What one request does: its command's effect, or the rejection of a byte that encodes no command. -/
def answered (r : Request) (s : State) : Result :=
  match decode r with
  | .ok i => exec i s
  | .error _ => .next (responded s .errIllegalCmd [])

/-- The single effects of requests, composed in order. -/
def answeredAll : List Request → State → Result
  | [], s => .next s
  | r :: rs, s =>
    match answered r s with
    | .next t => answeredAll rs t
    | .fault f => .fault f
    | .refused x => .refused x

/-- What a command adds to the message in `DCTX`. -/
def absorbedBy : Instr → List Byte
  | .absorb b => b
  | _ => []

/-- What a command adds to the message in `HCTX`. -/
def updatedBy : Instr → List Byte
  | .hmacUpdate b => b
  | _ => []

/-- A command that neither starts nor ends a digest stream. -/
def KeepsDigestStream (i : Instr) : Prop := (∀ v, i ≠ .init v) ∧ i ≠ .finalize

/-- A command that loads no key. -/
def LoadsNoKey (i : Instr) : Prop := ∀ v a, i ≠ .hmacInit v a

/-- A command that neither starts, ends nor restarts a MAC stream. -/
def KeepsMacStream (i : Instr) : Prop := LoadsNoKey i ∧ i ≠ .hmacFinish ∧ i ≠ .hmacReset

/-- The row `FINALIZE` of R200. -/
def finalBlocks (bufferLen : Nat) : Nat := if bufferLen ≤ 55 then 1 else 2

/-- The row `HASH` of R200, for a message of `n` bytes. -/
def hashBlocks (n : Nat) : Nat := if n % 64 ≤ 55 then n / 64 + 1 else n / 64 + 2

/-- The row `HMAC_INIT` of R200, for a key of `k` bytes. -/
def keyBlocks (k : Nat) : Nat := if k ≤ 64 then 1 else 1 + hashBlocks k

/-- The first 64 primes. -/
def primes : List Nat :=
  [2, 3, 5, 7, 11, 13, 17, 19, 23, 29, 31, 37, 41, 43, 47, 53] ++
  [59, 61, 67, 71, 73, 79, 83, 89, 97, 101, 103, 107, 109, 113, 127, 131] ++
  [137, 139, 149, 151, 157, 163, 167, 173, 179, 181, 191, 193, 197, 199, 211, 223] ++
  [227, 229, 233, 239, 241, 251, 257, 263, 269, 271, 277, 281, 283, 293, 307, 311]

end Sys2Proof.Claims

open Sys2Proof Sys2Proof.Machine Sys2Proof.Claims

/-! ## Encoding and decoding -/

/-- R70, R72, R73: every command is read back from its encoding, with every operand, and a request that decodes to a
command is that command's encoding in everything that belongs to the command. -/
def Obligations.DecodeEncodeAgree : Prop :=
  (∀ i : Instr, decode (encode i) = .ok i) ∧
  (∀ (r : Request) (i : Instr), decode r = .ok i → encode i = carried i r)

/-- R72, R73: the 14 legal command bytes, each with the command and the operands it stands for, and no other byte
decodes. -/
def Obligations.OpcodeMap : Prop :=
  Presents 0x10 (fun _ => .init .sha256) ∧ Presents 0x11 (fun _ => .init .sha224) ∧
  Presents 0x20 (fun r => .absorb r.b) ∧ Presents 0x30 (fun _ => .finalize) ∧
  Presents 0x40 (fun r => .hash .sha256 r.b) ∧ Presents 0x41 (fun r => .hash .sha224 r.b) ∧
  Presents 0x50 (fun r => .hmacInit .sha256 r.a) ∧ Presents 0x51 (fun r => .hmacInit .sha224 r.a) ∧
  Presents 0x60 (fun r => .hmacUpdate r.b) ∧ Presents 0x70 (fun _ => .hmacFinish) ∧
  Presents 0x80 (fun _ => .hmacReset) ∧
  Presents 0x90 (fun r => .hmac .sha256 r.a r.b) ∧ Presents 0x91 (fun r => .hmac .sha224 r.a r.b) ∧
  Presents 0xA0 (fun r => .deriveKey r.a r.b r.iter r.klen) ∧
  (∀ r : Request, (∃ i, decode r = .ok i) ↔
    r.cmd ∈ ([0x10, 0x11, 0x20, 0x30, 0x40, 0x41, 0x50, 0x51, 0x60, 0x70, 0x80, 0x90, 0x91, 0xA0] : List Byte))

/-- R76: which command a request stands for, and whether it is one, depends on the 8 bits of its command word. -/
def Obligations.DecodingReadsOnlyTheCommandWord : Prop :=
  ∀ r q : Request, r.cmd = q.cmd →
    (∀ e, decode r = .error e → decode q = .error e) ∧
    (∀ i, decode r = .ok i → ∃ j, decode q = .ok j ∧ (encode j).cmd = (encode i).cmd)

/-- R70, R72: words written out bit by bit, with operands beside them. -/
def Obligations.WrittenOutWordsDecode : Prop :=
  decode ⟨0b00010001, [], [], 0, 0⟩ = .ok (.init .sha224) ∧
  decode ⟨0b00100000, [], [7], 0, 0⟩ = .ok (.absorb [7]) ∧
  decode ⟨0b01010000, [8], [], 0, 0⟩ = .ok (.hmacInit .sha256 [8]) ∧
  decode ⟨0b10010001, [8], [7], 0, 0⟩ = .ok (.hmac .sha224 [8] [7]) ∧
  decode ⟨0b10100000, [8], [7], 4096, 32⟩ = .ok (.deriveKey [8] [7] 4096 32)

/-- R171: the five status codes. -/
def Obligations.StatusCodes : Prop :=
  Status.code .ok = 0x00 ∧ Status.code .errIllegalCmd = 0x01 ∧ Status.code .errSequence = 0x02 ∧
  Status.code .errIterZero = 0x03 ∧ Status.code .errLengthRange = 0x04 ∧
  ∀ st : Status, (Status.code st).toNat ≤ 4

/-! ## Steps, reset and rejections -/

/-- A step with a command presented that decodes runs that command, the move made. -/
def Obligations.StepRunsDecodedCommand : Prop :=
  ∀ (s : State) (r : Request) (rest : List HostMove) (i : Instr),
    s.moves = .command r :: rest → decode r = .ok i → step s = exec i { s with moves := rest }

/-- R172, R176: a byte that encodes no command is rejected, whatever operands come with it, and nothing changes. -/
def Obligations.IllegalByteIsRejected : Prop :=
  ∀ (s : State) (r : Request) (rest : List HostMove), s.moves = .command r :: rest →
    r.cmd ∉ ([0x10, 0x11, 0x20, 0x30, 0x40, 0x41, 0x50, 0x51, 0x60, 0x70, 0x80, 0x90, 0x91, 0xA0] : List Byte) →
    step s = .next { s with moves := rest, responses := s.responses ++ [⟨.errIllegalCmd, []⟩] }

/-- R36: both phases are `IDLE` after reset. -/
def Obligations.ResetStateIsIdle : Prop :=
  State.reset.dctx.phase = .idle ∧ State.reset.hctx.phase = .idle

/-- R190, R191: a reset between commands puts both phases to `IDLE` whatever they were; no response comes of it.
(That the other fields then hold what `State.reset` holds is log entry 5's, not the spec's.) -/
def Obligations.HostResetPutsEngineIdle : Prop :=
  ∀ (s : State) (rest : List HostMove), s.moves = .reset :: rest →
    ∃ t, step s = .next t ∧ t.dctx.phase = .idle ∧ t.hctx.phase = .idle ∧ t.moves = rest ∧
      t.responses = s.responses

/-- R190: with no command presented the engine waits (log entry 3: a step that changes nothing). -/
def Obligations.EngineWaitsForCommand : Prop :=
  ∀ s : State, s.moves = [] → step s = .next s

/-- R60: the requests that the host presents, illegal ones among them and whatever moves come after, have the
composition of their single effects in that order, with one response each. For requests that encode commands that is
the composition of the commands. -/
def Obligations.CommandsRunInOrder : Prop :=
  (∀ (rs : List Request) (rest : List HostMove) (s : State), s.moves = rs.map .command ++ rest →
    Host.Core.run Sys2Proof.core rs.length s = answeredAll rs { s with moves := rest } ∧
    ∃ t out, answeredAll rs { s with moves := rest } = .next t ∧ t.moves = rest ∧
      t.responses = s.responses ++ out ∧ out.length = rs.length) ∧
  (∀ (is : List Instr) (s : State), answeredAll (is.map encode) s = execAll is s)

/-- R201, U10: on every state every command ends with exactly one response, and every step goes on: the engine cannot
hang. -/
def Obligations.EveryCommandAnswersOnce : Prop :=
  (∀ (i : Instr) (s : State), ∃ t r, exec i s = .next t ∧ t.responses = s.responses ++ [r] ∧ t.moves = s.moves) ∧
  (∀ s : State, ∃ t, step s = .next t)

/-- R173: `ERR_SEQUENCE` comes of exactly the listed command and phase pairs. -/
def Obligations.SequenceRejectionsExactly : Prop :=
  ∀ (i : Instr) (s : State), ∃ t r, exec i s = .next t ∧ t.responses = s.responses ++ [r] ∧
    (r.status = .errSequence ↔ OutOfPhase s i)

/-- R174, R175: the two rejections of `DERIVE_KEY`, the zero count first. -/
def Obligations.DeriveKeyRejections : Prop :=
  ∀ (a b : List Byte) (iter : BitVec 32) (klen : Quad) (s : State),
    (iter = 0 → exec (.deriveKey a b iter klen) s = .next (responded s .errIterZero [])) ∧
    (iter ≠ 0 → 137438953440 < klen.toNat →
      exec (.deriveKey a b iter klen) s = .next (responded s .errLengthRange []))

/-- R176: a rejected command writes no field of either context and returns an empty output, run as a command or met in
a step. -/
def Obligations.RejectionChangesNothing : Prop :=
  (∀ (i : Instr) (s t : State) (r : Response), exec i s = .next t → t.responses = s.responses ++ [r] →
    r.status ≠ .ok → t = responded s r.status []) ∧
  (∀ (s t : State) (q : Request) (rest : List HostMove) (r : Response), s.moves = .command q :: rest →
    step s = .next t → t.responses = s.responses ++ [r] → r.status ≠ .ok →
    t = responded { s with moves := rest } r.status [])

/-! ## Words and bytes -/

/-- R9: the word operators, as numbers and bit by bit. -/
def Obligations.WordOperators : Prop :=
  (∀ x y : Word, (x + y).toNat = (x.toNat + y.toNat) % 2 ^ 32) ∧
  (∀ (x y : Word) (i : Nat), (x ^^^ y).getLsbD i = (x.getLsbD i ^^ y.getLsbD i) ∧
    (x &&& y).getLsbD i = (x.getLsbD i && y.getLsbD i) ∧ (x ||| y).getLsbD i = (x.getLsbD i || y.getLsbD i)) ∧
  (∀ (x : Word) (n : Nat), n ≤ 31 → (shr x n).toNat = x.toNat / 2 ^ n) ∧
  (∀ (x : Word) (n : Nat), 1 ≤ n → n ≤ 31 →
    (rotr x n).toNat = (x.toNat / 2 ^ n) ||| (x.toNat * 2 ^ (32 - n) % 2 ^ 32))

/-- R11: the big-endian conversions, and that `BE32` and `word_be` are inverse. -/
def Obligations.BigEndianConversions : Prop :=
  (∀ w : Word, (be32 w).length = 4 ∧ beValue (be32 w) = w.toNat ∧ wordBe (be32 w) 0 = w) ∧
  (∀ v : Quad, (be64 v).length = 8 ∧ beValue (be64 v) = v.toNat) ∧
  (∀ (s : List Byte) (k : Nat), 4 * k + 4 ≤ s.length →
    (wordBe s k).toNat = (s.getD (4 * k) 0).toNat * 2 ^ 24 + (s.getD (4 * k + 1) 0).toNat * 2 ^ 16 +
      (s.getD (4 * k + 2) 0).toNat * 2 ^ 8 + (s.getD (4 * k + 3) 0).toNat)

/-- R91 to R94: the four sigma functions, bit by bit; past bit 31 a word has only zeros. -/
def Obligations.SigmaFunctionsBitwise : Prop :=
  ∀ (x : Word) (i : Nat), i < 32 →
    (sigma0 x).getLsbD i = (x.getLsbD ((i + 7) % 32) ^^ x.getLsbD ((i + 18) % 32) ^^ x.getLsbD (i + 3)) ∧
    (sigma1 x).getLsbD i = (x.getLsbD ((i + 17) % 32) ^^ x.getLsbD ((i + 19) % 32) ^^ x.getLsbD (i + 10)) ∧
    (bigSigma0 x).getLsbD i =
      (x.getLsbD ((i + 2) % 32) ^^ x.getLsbD ((i + 13) % 32) ^^ x.getLsbD ((i + 22) % 32)) ∧
    (bigSigma1 x).getLsbD i =
      (x.getLsbD ((i + 6) % 32) ^^ x.getLsbD ((i + 11) % 32) ^^ x.getLsbD ((i + 25) % 32))

/-- R95, R96: bit by bit `Ch` selects and `Maj` is the majority. -/
def Obligations.ChooseAndMajority : Prop :=
  ∀ (x y z : Word) (i : Nat),
    (ch x y z).getLsbD i = (if x.getLsbD i then y.getLsbD i else z.getLsbD i) ∧
    (maj x y z).getLsbD i =
      decide (2 ≤ (x.getLsbD i).toNat + (y.getLsbD i).toNat + (z.getLsbD i).toNat)

/-- R97, R98: each round constant is the first 32 bits of the fractional part of the cube root of its prime, and each
initial word those of a square root: `n` is the root times a power of two, rounded down. -/
def Obligations.ConstantsAreRootFractions : Prop :=
  roundConstants.length = 64 ∧
  (∀ t, t < 64 → ∃ n : Nat, n ^ 3 ≤ primes.getD t 0 * 2 ^ 96 ∧ primes.getD t 0 * 2 ^ 96 < (n + 1) ^ 3 ∧
    (roundConstants.getD t 0).toNat = n % 2 ^ 32) ∧
  (∀ k, k < 8 → ∃ n : Nat, n ^ 2 ≤ primes.getD k 0 * 2 ^ 64 ∧ primes.getD k 0 * 2 ^ 64 < (n + 1) ^ 2 ∧
    ((wordList (initialHash .sha256)).getD k 0).toNat = n % 2 ^ 32) ∧
  (∀ k, k < 8 → ∃ n : Nat, n ^ 2 ≤ primes.getD (k + 8) 0 * 2 ^ 128 ∧
    primes.getD (k + 8) 0 * 2 ^ 128 < (n + 1) ^ 2 ∧
    ((wordList (initialHash .sha224)).getD k 0).toNat = n % 2 ^ 32)

/-! ## The compression function -/

/-- R99: 64 words, the first 16 read from the block and each later one from four earlier ones. -/
def Obligations.ScheduleRecurrence : Prop :=
  ∀ b : List Byte, (schedule b).length = 64 ∧
    (∀ t, t < 16 → (schedule b).getD t 0 = wordBe b t) ∧
    (∀ t, 16 ≤ t → t < 64 → (schedule b).getD t 0 =
      sigma1 ((schedule b).getD (t - 2) 0) + (schedule b).getD (t - 7) 0 +
        sigma0 ((schedule b).getD (t - 15) 0) + (schedule b).getD (t - 16) 0)

/-- R100, R101: `Compress` goes through 64 rounds from its state words, and adds the working variables to them. -/
def Obligations.CompressRunsTheRounds : Prop :=
  ∀ (h : HashWords) (b : List Byte), ∃ vars : Nat → HashWords, vars 0 = h ∧
    (∀ t, t < 64 →
      let s := vars t
      let t1 := s.w7 + bigSigma1 s.w4 + ch s.w4 s.w5 s.w6 + roundConstants.getD t 0 + (schedule b).getD t 0
      let t2 := bigSigma0 s.w0 + maj s.w0 s.w1 s.w2
      vars (t + 1) = ⟨t1 + t2, s.w0, s.w1, s.w2, s.w3 + t1, s.w4, s.w5, s.w6⟩) ∧
    compress h b =
      ⟨h.w0 + (vars 64).w0, h.w1 + (vars 64).w1, h.w2 + (vars 64).w2, h.w3 + (vars 64).w3,
        h.w4 + (vars 64).w4, h.w5 + (vars 64).w5, h.w6 + (vars 64).w6, h.w7 + (vars 64).w7⟩

/-! ## Digest contexts -/

/-- R104: what `CtxAbsorb` leaves in every specified field. -/
def Obligations.AbsorbRule : Prop :=
  ∀ (c : DigestCtx) (data : List Byte),
    let pending := c.buffer ++ data
    let c' := ctxAbsorb c data
    c'.variant = c.variant ∧
    c'.state = foldBlocks c.state pending (pending.length / 64) ∧
    c'.totalLen.toNat = (c.totalLen.toNat + data.length) % 2 ^ 64 ∧
    c'.buffer.length = pending.length % 64 ∧
    c'.buffer = pending.drop (64 * (pending.length / 64))

/-- R105, which the spec derives: two absorbs are one absorb of the concatenation, and so for any number of pieces. -/
def Obligations.AbsorbIsChunkInvariant : Prop :=
  (∀ (c : DigestCtx) (x y : List Byte), ctxAbsorb (ctxAbsorb c x) y = ctxAbsorb c (x ++ y)) ∧
  (∀ (c : DigestCtx) (pieces : List (List Byte)), c.buffer.length < 64 →
    pieces.foldl ctxAbsorb c = ctxAbsorb c pieces.flatten)

/-- R106: the padding, its length, and its trailer, which is the low 64 bits of the bit count. -/
def Obligations.PaddingRule : Prop :=
  ∀ (n : Nat) (total : Quad), n ≤ 63 →
    ∃ (z : Nat) (trailer : List Byte),
      pad n total = 0x80 :: (List.replicate z 0 ++ trailer) ∧
      (z : Int) = (55 - (n : Int)) % 64 ∧ (n + 1 + z) % 64 = 56 ∧
      trailer.length = 8 ∧ beValue trailer = total.toNat * 8 % 2 ^ 64 ∧
      n + (pad n total).length = if n ≤ 55 then 64 else 128

/-- R107: finalize compresses the buffered bytes and the padding, and returns `DSIZE` bytes of the state. -/
def Obligations.FinalizeRule : Prop :=
  ∀ c : DigestCtx,
    let last := c.buffer ++ pad c.buffer.length c.totalLen
    ctxFinalize c = (serialise (foldBlocks c.state last (last.length / 64))).take (dsize c.variant) ∧
    (ctxFinalize c).length = dsize c.variant ∧
    (c.buffer.length ≤ 63 → last.length = 64 ∨ last.length = 128)

/-- R108: byte `4k + j` of the serialised state is bits `31 - 8j` to `24 - 8j` of word `k`. -/
def Obligations.SerialisationRule : Prop :=
  ∀ s : HashWords, (serialise s).length = 32 ∧
    ∀ k j, k < 8 → j < 4 →
      (serialise s).getD (4 * k + j) 0 = ((wordList s).getD k 0).extractLsb' (24 - 8 * j) 8

/-- R109, as the spec derives it: the hash of a message is `Compress` folded over the blocks of the padded message. -/
def Obligations.HashIsPaddedFold : Prop :=
  ∀ (m : List Byte) (v : Variant),
    let padded := m ++ pad (m.length % 64) (BitVec.ofNat 64 m.length)
    padded.length % 64 = 0 ∧
    hashFn m v = (serialise (foldBlocks (initialHash v) padded (padded.length / 64))).take (dsize v)

/-! ## The digest commands -/

/-- R110: `INIT` on every state. -/
def Obligations.InitCompletes : Prop :=
  Presents 0x10 (fun _ => .init .sha256) ∧ Presents 0x11 (fun _ => .init .sha224) ∧
  ∀ (v : Variant) (s : State), exec (.init v) s =
    .next { s with
      dctx := ⟨.active, { variant := v, state := initialHash v, totalLen := 0, buffer := [] }⟩
      responses := s.responses ++ [⟨.ok, []⟩] }

/-- R111: `ABSORB` in `ACTIVE` and in `IDLE`. -/
def Obligations.AbsorbCompletes : Prop :=
  Presents 0x20 (fun r => .absorb r.b) ∧
  ∀ (b : List Byte) (s : State),
    (s.dctx.phase = .active → exec (.absorb b) s =
      .next { s with
        dctx := ⟨.active, ctxAbsorb s.dctx.ctx b⟩
        responses := s.responses ++ [⟨.ok, []⟩] }) ∧
    (s.dctx.phase = .idle → exec (.absorb b) s = .next (responded s .errSequence [])) ∧
    (s.dctx.ctx.buffer.length < 64 → ctxAbsorb s.dctx.ctx [] = s.dctx.ctx) ∧
    countedAbsorb s.dctx.ctx b = ⟨ctxAbsorb s.dctx.ctx b, (s.dctx.ctx.buffer.length + b.length) / 64, 0⟩

/-- R112: `FINALIZE` in `ACTIVE` and in `IDLE`. What `DCTX` is left with is unspecified: the statement holds for
every value of it. -/
def Obligations.FinalizeCompletes : Prop :=
  Presents 0x30 (fun _ => .finalize) ∧
  (∀ v : Variant, ctxFinalize (ctxInit v) = hashFn [] v) ∧
  ∀ s : State,
    (s.dctx.phase = .active → ∃ (left : DigestCtx) (n : Nat), exec .finalize s =
      .next { s with
        dctx := ⟨.idle, left⟩
        freeCount := n
        responses := s.responses ++ [⟨.ok, ctxFinalize s.dctx.ctx⟩] }) ∧
    (s.dctx.phase = .idle → exec .finalize s = .next (responded s .errSequence [])) ∧
    (s.dctx.ctx.buffer.length ≤ 63 →
      countedFinalize s.dctx.ctx = ⟨ctxFinalize s.dctx.ctx, if s.dctx.ctx.buffer.length ≤ 55 then 1 else 2, 0⟩)

/-- R113: `HASH` on every state: it only responds. -/
def Obligations.HashCompletes : Prop :=
  Presents 0x40 (fun r => .hash .sha256 r.b) ∧ Presents 0x41 (fun r => .hash .sha224 r.b) ∧
  ∀ (v : Variant) (b : List Byte) (s : State),
    exec (.hash v b) s = .next (responded s .ok (ctxFinalize (ctxAbsorb (ctxInit v) b)))

/-! ## HMAC -/

/-- R131: the pads, byte by byte, of the key or, for a key longer than 64 bytes, of its hash. -/
def Obligations.KeyPadsRule : Prop :=
  ∀ (key : List Byte) (v : Variant),
    let k := if key.length > 64 then hashFn key v else key
    (keyIpad key v).length = 64 ∧ (keyOpad key v).length = 64 ∧
    ∀ i, i < 64 → (keyIpad key v).getD i 0 = 0x36 ^^^ k.getD i 0 ∧ (keyOpad key v).getD i 0 = 0x5C ^^^ k.getD i 0

/-- R132, as the spec derives it: the inner context after the one block of `ipad`. -/
def Obligations.HmacStartIsOneBlock : Prop :=
  ∀ (ipad : List Byte) (v : Variant), ipad.length = 64 →
    hmacStart ipad v = { variant := v, state := compress (initialHash v) ipad, totalLen := 64, buffer := [] }

/-- R134, as the spec derives it: the MAC is the hash of `opad` and the hash of `ipad` and the message. -/
def Obligations.HmacIsNestedHash : Prop :=
  ∀ (key msg : List Byte) (v : Variant),
    hmacFn key msg v = hashFn (keyOpad key v ++ hashFn (keyIpad key v ++ msg) v) v

/-- R142 d and R160, which the spec derives: a long key or password acts as its hash. -/
def Obligations.LongKeyActsAsItsHash : Prop :=
  ∀ key : List Byte, 64 < key.length →
    (∀ (msg : List Byte) (v : Variant), hmacFn key msg v = hmacFn (hashFn key v) msg v) ∧
    (∀ (salt : List Byte) (c len : Nat), pbkdf2 key salt c len = pbkdf2 (hashFn key .sha256) salt c len)

/-- R135: `HMAC_INIT` on every state. -/
def Obligations.HmacInitCompletes : Prop :=
  Presents 0x50 (fun r => .hmacInit .sha256 r.a) ∧ Presents 0x51 (fun r => .hmacInit .sha224 r.a) ∧
  ∀ (v : Variant) (a : List Byte) (s : State), exec (.hmacInit v a) s =
    .next { s with
      hctx := { phase := .active, variant := v, ipad := keyIpad a v, opad := keyOpad a v,
                inner := ctxAbsorb (ctxInit v) (keyIpad a v) }
      responses := s.responses ++ [⟨.ok, []⟩] }

/-- R136: `HMAC_UPDATE` in `ACTIVE` and in the other phases. -/
def Obligations.HmacUpdateCompletes : Prop :=
  Presents 0x60 (fun r => .hmacUpdate r.b) ∧
  ∀ (b : List Byte) (s : State),
    (s.hctx.phase = .active → exec (.hmacUpdate b) s =
      .next { s with
        hctx := { s.hctx with inner := ctxAbsorb s.hctx.inner b }
        responses := s.responses ++ [⟨.ok, []⟩] }) ∧
    (s.hctx.phase = .idle ∨ s.hctx.phase = .finished →
      exec (.hmacUpdate b) s = .next (responded s .errSequence [])) ∧
    (s.hctx.inner.buffer.length < 64 → ctxAbsorb s.hctx.inner [] = s.hctx.inner)

/-- R137, R133: `HMAC_FINISH` in `ACTIVE` and in the other phases. What `HCTX.inner` is left with is unspecified. -/
def Obligations.HmacFinishCompletes : Prop :=
  Presents 0x70 (fun _ => .hmacFinish) ∧
  ∀ s : State,
    (s.hctx.phase = .active → ∃ (left : DigestCtx) (n : Nat), exec .hmacFinish s =
      .next { s with
        hctx := { s.hctx with phase := .finished, inner := left }
        freeCount := n
        responses := s.responses ++ [⟨.ok,
          ctxFinalize (ctxAbsorb (ctxAbsorb (ctxInit s.hctx.variant) s.hctx.opad)
            (ctxFinalize s.hctx.inner))⟩] }) ∧
    (s.hctx.phase = .idle ∨ s.hctx.phase = .finished →
      exec .hmacFinish s = .next (responded s .errSequence []))

/-- R138: `HMAC_RESET` in `ACTIVE` and `FINISHED`, and in `IDLE`. -/
def Obligations.HmacResetCompletes : Prop :=
  Presents 0x80 (fun _ => .hmacReset) ∧
  ∀ s : State,
    (s.hctx.phase = .active ∨ s.hctx.phase = .finished → exec .hmacReset s =
      .next { s with
        hctx := { s.hctx with phase := .active, inner := ctxAbsorb (ctxInit s.hctx.variant) s.hctx.ipad }
        responses := s.responses ++ [⟨.ok, []⟩] }) ∧
    (s.hctx.phase = .idle → exec .hmacReset s = .next (responded s .errSequence []))

/-- R139: `HMAC` on every state: it only responds. -/
def Obligations.HmacCompletes : Prop :=
  Presents 0x90 (fun r => .hmac .sha256 r.a r.b) ∧ Presents 0x91 (fun r => .hmac .sha224 r.a r.b) ∧
  ∀ (v : Variant) (a b : List Byte) (s : State), exec (.hmac v a b) s = .next (responded s .ok (hmacFn a b v))

/-! ## Key derivation -/

/-- R152, and R10 for `xorbytes`: the chain of MACs, and their running xor, byte by byte. -/
def Obligations.PbkdfBlockRule : Prop :=
  ∀ (password salt : List Byte) (c i : Nat), 1 ≤ c → 1 ≤ i → i ≤ 2 ^ 32 - 1 →
    ∃ u : Nat → List Byte,
      u 1 = hmacFn password (salt ++ be32 (BitVec.ofNat 32 i)) .sha256 ∧
      (∀ j, 1 ≤ j → u (j + 1) = hmacFn password (u j) .sha256) ∧
      (∀ j, 1 ≤ j → (u j).length = 32) ∧
      (pbkdfBlock password salt c i).length = 32 ∧
      ∀ k, k < 32 → (pbkdfBlock password salt c i).getD k 0 =
        (List.range' 2 (c - 1)).foldl (fun x j => x ^^^ (u j).getD k 0) ((u 1).getD k 0)

/-- R153: `ceil(L / 32)` blocks from block 1 on, cut at `L` bytes: exactly `L` bytes come. -/
def Obligations.Pbkdf2Rule : Prop :=
  ∀ (password salt : List Byte) (c len : Nat), 1 ≤ c → len ≤ 137438953440 →
    ∃ n, len ≤ 32 * n ∧ 32 * n < len + 32 ∧
      pbkdf2 password salt c len = ((List.range' 1 n).flatMap (pbkdfBlock password salt c)).take len ∧
      (pbkdf2 password salt c len).length = len

/-- R158, which the spec derives: a shorter key is the front of a longer one. -/
def Obligations.Pbkdf2Truncation : Prop :=
  ∀ (password salt : List Byte) (c short long : Nat), short ≤ long →
    pbkdf2 password salt c short = (pbkdf2 password salt c long).take short

/-- R154: `DERIVE_KEY` on every state: it only responds, with the key or with a rejection. -/
def Obligations.DeriveKeyCompletes : Prop :=
  Presents 0xA0 (fun r => .deriveKey r.a r.b r.iter r.klen) ∧
  (∀ r : Request, r.cmd = 0xA1 → ∃ e, decode r = .error e) ∧
  ∀ (a b : List Byte) (iter : BitVec 32) (klen : Quad) (s : State),
    (iter ≠ 0 → klen.toNat ≤ 137438953440 →
      exec (.deriveKey a b iter klen) s = .next (responded s .ok (pbkdf2 a b iter.toNat klen.toNat)) ∧
      (countedPbkdf2 a b iter.toNat klen.toNat).value = pbkdf2 a b iter.toNat klen.toNat ∧
      (countedPbkdf2 a b iter.toNat klen.toNat).macs = (klen.toNat + 31) / 32 * iter.toNat) ∧
    (iter = 0 → exec (.deriveKey a b iter klen) s = .next (responded s .errIterZero [])) ∧
    (iter ≠ 0 → 137438953440 < klen.toNat →
      exec (.deriveKey a b iter klen) s = .next (responded s .errLengthRange [])) ∧
    pbkdf2 a b iter.toNat 0 = []

/-! ## The whole machine -/

/-- R24, R28: the phase and the status after every command; a command outside a table's family leaves that context
as it was. -/
def Obligations.PhaseTransitions : Prop :=
  ∀ (i : Instr) (s : State), ∃ t r, exec i s = .next t ∧ t.responses = s.responses ++ [r] ∧
    (∀ p st, digestTable i s.dctx.phase = some (p, st) → t.dctx.phase = p ∧ r.status = st) ∧
    (digestTable i s.dctx.phase = none → t.dctx = s.dctx) ∧
    (∀ p st, macTable i s.hctx.phase = some (p, st) → t.hctx.phase = p ∧ r.status = st) ∧
    (macTable i s.hctx.phase = none → t.hctx = s.hctx)

/-- R26: a command that does not use a context neither writes it nor depends on what it holds. -/
def Obligations.ContextsAreSeparate : Prop :=
  ∀ (i : Instr) (s t : State), exec i s = .next t →
    (usesDctx i = false → t.dctx = s.dctx ∧
      ∀ d : Dctx, exec i { s with dctx := d } = .next { t with dctx := d }) ∧
    (usesHctx i = false → t.hctx = s.hctx ∧
      ∀ h : Hctx, exec i { s with hctx := h } = .next { t with hctx := h })

/-- R137, R138 and the access table R42 (derived): only `HMAC_INIT` writes the variant and the pads. -/
def Obligations.OnlyHmacInitWritesPads : Prop :=
  ∀ (i : Instr) (s t : State), LoadsNoKey i → exec i s = .next t →
    t.hctx.variant = s.hctx.variant ∧ t.hctx.ipad = s.hctx.ipad ∧ t.hctx.opad = s.hctx.opad

/-- R35: a one-shot command neither reads nor writes a context: its response is a function of its operands alone. -/
def Obligations.OneShotCommandsArePure : Prop :=
  ∀ i : Instr, usesDctx i = false → usesHctx i = false →
    ∃ r : Response, ∀ s : State, exec i s = .next { s with responses := s.responses ++ [r] }

/-- R53: the length of the output of every command on every state, with the two digest sizes of R14 as numbers. -/
def Obligations.OutputLengths : Prop :=
  dsize .sha256 = 32 ∧ dsize .sha224 = 28 ∧
  ∀ (i : Instr) (s : State), ∃ t r, exec i s = .next t ∧ t.responses = s.responses ++ [r] ∧
    r.out.length = if r.status = .ok then outLength s i else 0

/-- R200 and R161, which the spec derives: a command run with its evaluations counted ends as the command itself ends,
and the counts are those of the table, row by row. A rejected command evaluates nothing. -/
def Obligations.WorkCounts : Prop :=
  (∀ (i : Instr) (s : State), (countedExec i s).value = exec i s) ∧
  (∀ (i : Instr) (s t : State) (r : Response), exec i s = .next t → t.responses = s.responses ++ [r] →
    r.status ≠ .ok → (countedExec i s).compressions = 0 ∧ (countedExec i s).macs = 0) ∧
  (∀ (v : Variant) (s : State), (countedExec (.init v) s).compressions = 0) ∧
  (∀ s : State, s.hctx.phase ≠ .idle → s.hctx.ipad.length = 64 → (countedExec .hmacReset s).compressions = 1) ∧
  (∀ (b : List Byte) (s : State), s.dctx.phase = .active →
    (countedExec (.absorb b) s).compressions = (s.dctx.ctx.buffer.length + b.length) / 64) ∧
  (∀ (b : List Byte) (s : State), s.hctx.phase = .active →
    (countedExec (.hmacUpdate b) s).compressions = (s.hctx.inner.buffer.length + b.length) / 64) ∧
  (∀ s : State, s.dctx.phase = .active → s.dctx.ctx.buffer.length ≤ 63 →
    (countedExec .finalize s).compressions = finalBlocks s.dctx.ctx.buffer.length) ∧
  (∀ (v : Variant) (b : List Byte) (s : State), (countedExec (.hash v b) s).compressions = hashBlocks b.length) ∧
  (∀ (v : Variant) (a : List Byte) (s : State), (countedExec (.hmacInit v a) s).compressions = keyBlocks a.length) ∧
  (∀ s : State, s.hctx.phase = .active → s.hctx.opad.length = 64 → s.hctx.inner.buffer.length ≤ 63 →
    (countedExec .hmacFinish s).compressions = finalBlocks s.hctx.inner.buffer.length + 2) ∧
  (∀ (v : Variant) (a b : List Byte) (s : State), (countedExec (.hmac v a b) s).compressions =
    keyBlocks a.length + b.length / 64 + (finalBlocks (b.length % 64) + 2)) ∧
  (∀ (a b : List Byte) (iter : BitVec 32) (klen : Quad) (s : State), iter ≠ 0 → klen.toNat ≤ 137438953440 →
    (countedExec (.deriveKey a b iter klen) s).macs = (klen.toNat + 31) / 32 * iter.toNat)

/-- The invariant holds right after reset. -/
def Obligations.InvariantAtReset : Prop := State.reset.Inv

/-- From every state that meets the invariant, whatever the host does next, a step keeps it. -/
def Obligations.EveryStepKeepsInvariant : Prop :=
  ∀ s t : State, s.Inv → step s = .next t → t.Inv

/-- No context is in use right after reset, so each in use holds a message. -/
def Obligations.StreamsAtReset : Prop := State.reset.Streams

/-- R21, R25, R65: from every state whose contexts in use hold messages, whatever the host does next, a step keeps it
so: a context in use is always one that absorbing some message once would give, under some key for a MAC. -/
def Obligations.EveryStepKeepsStreams : Prop :=
  ∀ s t : State, s.Streams → step s = .next t → t.Streams

/-- R15, R36, R40, R41: what an unspecified field holds is never seen. Two machines that agree in every specified field
answer the same and go on agreeing, whatever their other fields hold. -/
def Obligations.UnspecifiedFieldsAreNeverSeen : Prop :=
  ∀ s t : State, s.Agrees t → ∃ s' t', step s = .next s' ∧ step t = .next t' ∧ s'.Agrees t'

/-- R65, R78, R113, R196 (derived there): a digest stream, with any other commands among its pieces, gives the digest
`HASH` gives of the concatenation. -/
def Obligations.StreamedDigestEqualsHash : Prop :=
  ∀ (v : Variant) (is : List Instr) (s : State), (∀ i ∈ is, KeepsDigestStream i) →
    ∃ t, execAll (.init v :: is ++ [.finalize]) s = .next t ∧
      t.responses.getLast? = some ⟨.ok, hashFn (is.flatMap absorbedBy) v⟩

/-- R139, R141, R196 (derived there): a MAC stream, with any other commands among its pieces, gives the MAC `HMAC`
gives of the concatenation. -/
def Obligations.StreamedMacEqualsHmac : Prop :=
  ∀ (v : Variant) (key : List Byte) (is : List Instr) (s : State), (∀ i ∈ is, KeepsMacStream i) →
    ∃ t, execAll (.hmacInit v key :: is ++ [.hmacFinish]) s = .next t ∧
      t.responses.getLast? = some ⟨.ok, hmacFn key (is.flatMap updatedBy) v⟩

/-- R140 (derived there): after any commands that load no other key, `HMAC_RESET` leaves the whole of `HCTX` as
`HMAC_INIT` left it. -/
def Obligations.HmacResetEqualsReinit : Prop :=
  ∀ (v : Variant) (key : List Byte) (is : List Instr) (s s0 s1 : State), (∀ i ∈ is, LoadsNoKey i) →
    exec (.hmacInit v key) s = .next s0 → execAll is s0 = .next s1 →
    ∃ t, exec .hmacReset s1 = .next t ∧ t.hctx = s0.hctx

/-- R159 (derived there): one HMAC context, reset between uses, gives for each message the MAC that a fresh context
under the same password gives. -/
def Obligations.ReusedContextGivesFreshMacs : Prop :=
  ∀ (password : List Byte) (msgs : List (List Byte)) (s : State),
    ∃ t, execAll (.hmacInit .sha256 password ::
        msgs.flatMap fun m => [.hmacUpdate m, .hmacFinish, .hmacReset]) s = .next t ∧
      t.responses = s.responses ++ ⟨.ok, []⟩ ::
        msgs.flatMap fun m => [⟨.ok, []⟩, ⟨.ok, hmacFn password m .sha256⟩, ⟨.ok, []⟩]
end

