-- ==== Sys2Proof/Laws/Bytes.lean ====
section
/-! SUPPORT. The lengths of the byte sequences the engine makes, and how whole blocks come apart. -/

namespace Sys2Proof.Machine

@[simp] theorem be32_length (w : Word) : (be32 w).length = 4 := rfl

@[simp] theorem be64_length (v : Quad) : (be64 v).length = 8 := rfl

@[simp] theorem takeBlocks_length (q : Nat) (p : List Byte) : (takeBlocks q p).length = q := by
  induction q generalizing p with
  | zero => rfl
  | succ q ih => simp [takeBlocks, ih]

@[simp] theorem wholeBlocks_length (p : List Byte) : (wholeBlocks p).length = p.length / 64 := by
  simp [wholeBlocks]

@[simp] theorem afterBlocks_length (p : List Byte) : (afterBlocks p).length = p.length % 64 := by
  simp only [afterBlocks, List.length_drop]
  omega

/-- Blocks in front of other blocks are taken first. -/
theorem takeBlocks_add (q r : Nat) (p : List Byte) :
    takeBlocks (q + r) p = takeBlocks q p ++ takeBlocks r (p.drop (64 * q)) := by
  induction q generalizing p with
  | zero => simp [takeBlocks]
  | succ q ih =>
    have h : 64 * (q + 1) = 64 + 64 * q := by omega
    rw [Nat.add_right_comm]
    simp [takeBlocks, ih, h]

/-- The blocks that a byte sequence holds whole do not depend on what follows. -/
theorem takeBlocks_append_of_le {q : Nat} {p : List Byte} (t : List Byte) (h : 64 * q ≤ p.length) :
    takeBlocks q (p ++ t) = takeBlocks q p := by
  induction q generalizing p with
  | zero => rfl
  | succ q ih =>
    have h1 : 64 ≤ p.length := by omega
    simp only [takeBlocks]
    rw [List.take_append_of_le_length h1, List.drop_append_of_le_length h1, ih (by simp; omega)]

/-- No block in less than a block. -/
theorem wholeBlocks_of_short {p : List Byte} (h : p.length < 64) : wholeBlocks p = [] := by
  simp [wholeBlocks, Nat.div_eq_of_lt h, takeBlocks]

theorem afterBlocks_of_short {p : List Byte} (h : p.length < 64) : afterBlocks p = p := by
  simp [afterBlocks, Nat.div_eq_of_lt h]

/-- The whole blocks of a concatenation: those of its front, then those of the front's rest and its back. -/
theorem wholeBlocks_append (p t : List Byte) :
    wholeBlocks (p ++ t) = wholeBlocks p ++ wholeBlocks (afterBlocks p ++ t) := by
  have hp := Nat.div_add_mod p.length 64
  have hq : (p ++ t).length / 64 = p.length / 64 + (afterBlocks p ++ t).length / 64 := by
    simp only [List.length_append, afterBlocks_length]; omega
  have hd : (p ++ t).drop (64 * (p.length / 64)) = afterBlocks p ++ t :=
    List.drop_append_of_le_length (by omega)
  unfold wholeBlocks
  rw [hq, takeBlocks_add, hd,
    takeBlocks_append_of_le t (by omega)]

theorem afterBlocks_append (p t : List Byte) : afterBlocks (p ++ t) = afterBlocks (afterBlocks p ++ t) := by
  have hp := Nat.div_add_mod p.length 64
  have hd : (p ++ t).drop (64 * (p.length / 64)) = afterBlocks p ++ t :=
    List.drop_append_of_le_length (by omega)
  have hq : 64 * ((p ++ t).length / 64) =
      64 * (p.length / 64) + 64 * ((afterBlocks p ++ t).length / 64) := by
    simp only [List.length_append, afterBlocks_length]; omega
  have hdef (x : List Byte) : afterBlocks x = x.drop (64 * (x.length / 64)) := rfl
  rw [hdef (p ++ t), hq, ← List.drop_drop, hd, ← hdef]

end Sys2Proof.Machine
end

