-- ==== Sys2Proof/Laws/Digest.lean ====
section
/-! SUPPORT. The small lemmas of the context functions and the key pads. -/

namespace Sys2Proof.Machine

variable (c : DigestCtx) (v : Variant) (data : List Byte)

@[simp] theorem ctxInit_variant : (ctxInit v).variant = v := rfl
@[simp] theorem ctxInit_state : (ctxInit v).state = initialHash v := rfl
@[simp] theorem ctxInit_totalLen : (ctxInit v).totalLen = 0 := rfl
@[simp] theorem ctxInit_buffer : (ctxInit v).buffer = [] := rfl

@[simp] theorem ctxAbsorb_variant : (ctxAbsorb c data).variant = c.variant := rfl
@[simp] theorem ctxAbsorb_totalLen :
    (ctxAbsorb c data).totalLen = c.totalLen + BitVec.ofNat 64 data.length := rfl
@[simp] theorem ctxAbsorb_buffer_length :
    (ctxAbsorb c data).buffer.length = (c.buffer.length + data.length) % 64 := by
  simp [ctxAbsorb]

@[simp] theorem hmacStart_variant (ipad : List Byte) : (hmacStart ipad v).variant = v := rfl

@[simp] theorem serialise_length (s : HashWords) : (serialise s).length = 32 := rfl

theorem dsize_le : dsize v ≤ 32 := by cases v <;> decide

theorem padZeros_lt (n : Nat) : padZeros n < 64 := by
  unfold padZeros; omega

theorem roundConstants_length : roundConstants.length = 64 := rfl

end Sys2Proof.Machine
end

