-- ==== Sys2Proof/Laws/State.lean ====
section
/-! SUPPORT. One lemma per field per update of State, so that no proof unfolds a record update. -/

namespace Sys2Proof.Machine

variable (d : Dctx) (h : Hctx) (m : List HostMove) (r : Response) (q : Request) (s : State)

@[simp] theorem State.withDctx_dctx : (s.withDctx d).dctx = d := rfl
@[simp] theorem State.withDctx_hctx : (s.withDctx d).hctx = s.hctx := rfl
@[simp] theorem State.withDctx_freeCount : (s.withDctx d).freeCount = s.freeCount := rfl
@[simp] theorem State.withDctx_moves : (s.withDctx d).moves = s.moves := rfl
@[simp] theorem State.withDctx_responses : (s.withDctx d).responses = s.responses := rfl

@[simp] theorem State.withHctx_dctx : (s.withHctx h).dctx = s.dctx := rfl
@[simp] theorem State.withHctx_hctx : (s.withHctx h).hctx = h := rfl
@[simp] theorem State.withHctx_freeCount : (s.withHctx h).freeCount = s.freeCount := rfl
@[simp] theorem State.withHctx_moves : (s.withHctx h).moves = s.moves := rfl
@[simp] theorem State.withHctx_responses : (s.withHctx h).responses = s.responses := rfl

@[simp] theorem State.withMoves_dctx : (s.withMoves m).dctx = s.dctx := rfl
@[simp] theorem State.withMoves_hctx : (s.withMoves m).hctx = s.hctx := rfl
@[simp] theorem State.withMoves_freeCount : (s.withMoves m).freeCount = s.freeCount := rfl
@[simp] theorem State.withMoves_moves : (s.withMoves m).moves = m := rfl
@[simp] theorem State.withMoves_responses : (s.withMoves m).responses = s.responses := rfl

@[simp] theorem State.deliver_dctx : (s.deliver r).dctx = s.dctx := rfl
@[simp] theorem State.deliver_hctx : (s.deliver r).hctx = s.hctx := rfl
@[simp] theorem State.deliver_freeCount : (s.deliver r).freeCount = s.freeCount := rfl
@[simp] theorem State.deliver_moves : (s.deliver r).moves = s.moves := rfl
@[simp] theorem State.deliver_responses : (s.deliver r).responses = s.responses ++ [r] := rfl

@[simp] theorem State.drawFree_dctx : s.drawFree.dctx = s.dctx := rfl
@[simp] theorem State.drawFree_hctx : s.drawFree.hctx = s.hctx := rfl
@[simp] theorem State.drawFree_freeCount : s.drawFree.freeCount = s.freeCount + 1 := rfl
@[simp] theorem State.drawFree_moves : s.drawFree.moves = s.moves := rfl
@[simp] theorem State.drawFree_responses : s.drawFree.responses = s.responses := rfl

@[simp] theorem State.present_dctx : (s.present q).dctx = s.dctx := rfl
@[simp] theorem State.present_hctx : (s.present q).hctx = s.hctx := rfl
@[simp] theorem State.present_freeCount : (s.present q).freeCount = s.freeCount := rfl
@[simp] theorem State.present_moves : (s.present q).moves = .command q :: s.moves := rfl
@[simp] theorem State.present_responses : (s.present q).responses = s.responses := rfl

end Sys2Proof.Machine
end

