-- ==== Sys2Proof/Laws/Ops.lean ====
section
/-! SUPPORT. What each shared operation can do, said once. -/

namespace Sys2Proof.Machine

variable {s t : State}

/-- A completed command goes on, in the state it wrote, with one response more. -/
theorem complete_eq_next {out : List Byte} : complete out s = .next t ↔ s.deliver ⟨.ok, out⟩ = t := by
  simp [complete]

/-- A rejected command goes on, with one response more and nothing else changed. -/
theorem reject_eq_next {st : Status} : reject st s = .next t ↔ s.deliver ⟨st, []⟩ = t := by
  simp [reject]

/-- A command that is checked either runs, its check passed, or is rejected with the check's status. -/
theorem checked_eq_next {check : Option Status} {run : Result} :
    checked check s run = .next t ↔
      (check = none ∧ run = .next t) ∨ ∃ st, check = some st ∧ s.deliver ⟨st, []⟩ = t := by
  cases check <;> simp [checked, reject]

@[simp] theorem checked_none {run : Result} : checked none s run = run := rfl
@[simp] theorem checked_some {st : Status} {run : Result} : checked (some st) s run = reject st s := rfl

@[simp] theorem digestCheck_eq_none {p : DigestPhase} : digestCheck p = none ↔ p = .active := by
  cases p <;> simp [digestCheck]

@[simp] theorem macCheck_eq_none {p : HmacPhase} : macCheck p = none ↔ p = .active := by
  cases p <;> simp [macCheck]

@[simp] theorem keyCheck_eq_none {p : HmacPhase} : keyCheck p = none ↔ p ≠ .idle := by
  cases p <;> simp [keyCheck]

theorem digestCheck_eq_some {p : DigestPhase} {st : Status} :
    digestCheck p = some st ↔ p ≠ .active ∧ st = .errSequence := by
  cases p <;> simp [digestCheck, eq_comm]

theorem macCheck_eq_some {p : HmacPhase} {st : Status} :
    macCheck p = some st ↔ p ≠ .active ∧ st = .errSequence := by
  cases p <;> simp [macCheck, eq_comm]

theorem keyCheck_eq_some {p : HmacPhase} {st : Status} :
    keyCheck p = some st ↔ p = .idle ∧ st = .errSequence := by
  cases p <;> simp [keyCheck, eq_comm]

/-- The three ways `DERIVE_KEY`'s check can end. -/
theorem deriveCheck_cases (iter : BitVec 32) (klen : Quad) :
    (iter = 0 ∧ deriveCheck iter klen = some .errIterZero) ∨
    (iter ≠ 0 ∧ Config.klenMax < klen.toNat ∧ deriveCheck iter klen = some .errLengthRange) ∨
    (iter ≠ 0 ∧ klen.toNat ≤ Config.klenMax ∧ deriveCheck iter klen = none) := by
  unfold deriveCheck
  by_cases h : iter = 0
  · exact .inl ⟨h, if_pos h⟩
  · rw [if_neg h]
    by_cases k : Config.klenMax < klen.toNat
    · exact .inr (.inl ⟨h, k, if_pos k⟩)
    · exact .inr (.inr ⟨h, by omega, if_neg k⟩)

/-- The engine waits where the host makes no move. -/
theorem takeMove_of_no_moves (h : s.moves = []) : takeMove s = .next s := by
  simp [takeMove, h]

theorem takeMove_of_command {r : Request} {rest : List HostMove} (h : s.moves = .command r :: rest) :
    takeMove s = runRequest r (s.withMoves rest) := by
  simp [takeMove, h]

theorem takeMove_of_reset {rest : List HostMove} (h : s.moves = .reset :: rest) :
    takeMove s = hostReset (s.withMoves rest) := by
  simp [takeMove, h]

theorem runRequest_of_decode {r : Request} {i : Instr} (h : decode r = .ok i) : runRequest r s = exec i s := by
  simp [runRequest, h]

theorem runRequest_of_illegal {r : Request} {e : Illegal} (h : decode r = .error e) :
    runRequest r s = reject .errIllegalCmd s := by
  simp [runRequest, h]

theorem freeDigestCtx_bounded (n : Nat) : (freeDigestCtx n).buffer.length < 64 := by
  simp [freeDigestCtx]

end Sys2Proof.Machine
end

