-- ==== Sys2Proof/Laws/Exec.lean ====
section
/-! SUPPORT. What a command can do to the machine, said once for each command and once for all. -/

namespace Sys2Proof.Machine

/-- The ways a command that goes on can have changed the machine: it only responded (a one-shot command, or a
rejection), or it is one of the seven streaming commands, its phase check passed. -/
inductive Effect : Instr → State → State → Prop where
  | respond (i : Instr) (s : State) (r : Response) : Effect i s (s.deliver r)
  | init (v : Variant) (s : State) :
      Effect (.init v) s ((s.withDctx ⟨.active, ctxInit v⟩).deliver ⟨.ok, []⟩)
  | absorb (b : List Byte) (s : State) : s.dctx.phase = .active →
      Effect (.absorb b) s ((s.withDctx ⟨.active, ctxAbsorb s.dctx.ctx b⟩).deliver ⟨.ok, []⟩)
  | finalize (s : State) : s.dctx.phase = .active →
      Effect .finalize s
        ((s.withDctx ⟨.idle, freeDigestCtx s.freeCount⟩).drawFree.deliver ⟨.ok, ctxFinalize s.dctx.ctx⟩)
  | hmacInit (v : Variant) (a : List Byte) (s : State) :
      Effect (.hmacInit v a) s
        ((s.withHctx ⟨.active, v, keyIpad a v, keyOpad a v, hmacStart (keyIpad a v) v⟩).deliver ⟨.ok, []⟩)
  | hmacUpdate (b : List Byte) (s : State) : s.hctx.phase = .active →
      Effect (.hmacUpdate b) s
        ((s.withHctx { s.hctx with inner := ctxAbsorb s.hctx.inner b }).deliver ⟨.ok, []⟩)
  | hmacFinish (s : State) : s.hctx.phase = .active →
      Effect .hmacFinish s
        ((s.withHctx { s.hctx with phase := .finished, inner := freeDigestCtx s.freeCount }).drawFree.deliver
          ⟨.ok, hmacFinishFn s.hctx.inner s.hctx.opad s.hctx.variant⟩)
  | hmacReset (s : State) : s.hctx.phase ≠ .idle →
      Effect .hmacReset s
        ((s.withHctx { s.hctx with phase := .active, inner := hmacStart s.hctx.ipad s.hctx.variant }).deliver
          ⟨.ok, []⟩)

/-- A checked command's effect: a rejection only responds. -/
theorem Effect.of_checked {i : Instr} {s t : State} {check : Option Status} {out : List Byte} {w : State}
    (h : checked check s (complete out w) = .next t)
    (run : check = none → Effect i s (w.deliver ⟨.ok, out⟩)) : Effect i s t := by
  rcases checked_eq_next.mp h with ⟨hc, hr⟩ | ⟨st, _, rfl⟩
  · exact complete_eq_next.mp hr ▸ run hc
  · exact .respond i s _

/-- Every command that goes on has one of the effects. -/
theorem effect_of_exec {i : Instr} {s t : State} (h : exec i s = .next t) : Effect i s t := by
  cases i with
  | init v => exact complete_eq_next.mp h ▸ .init v s
  | absorb b => exact .of_checked h fun hc => .absorb b s (digestCheck_eq_none.mp hc)
  | finalize => exact .of_checked h fun hc => .finalize s (digestCheck_eq_none.mp hc)
  | hash v b => exact complete_eq_next.mp h ▸ .respond _ s _
  | hmacInit v a => exact complete_eq_next.mp h ▸ .hmacInit v a s
  | hmacUpdate b => exact .of_checked h fun hc => .hmacUpdate b s (macCheck_eq_none.mp hc)
  | hmacFinish => exact .of_checked h fun hc => .hmacFinish s (macCheck_eq_none.mp hc)
  | hmacReset => exact .of_checked h fun hc => .hmacReset s (keyCheck_eq_none.mp hc)
  | hmac v a b => exact complete_eq_next.mp h ▸ .respond _ s _
  | deriveKey a b iter klen => exact .of_checked h fun _ => .respond _ s _

/-- A buffer stays within R20's bound. -/
theorem ctxAbsorb_bounded (c : DigestCtx) (data : List Byte) : (ctxAbsorb c data).Bounded := by
  simp only [DigestCtx.Bounded, ctxAbsorb_buffer_length]; omega

/-- Absorbing keeps `buffer_len = total_len mod 64` (R21). -/
theorem ctxAbsorb_counted {c : DigestCtx} (data : List Byte) (h : c.Counted) : (ctxAbsorb c data).Counted := by
  simp only [DigestCtx.Counted, ctxAbsorb_buffer_length, ctxAbsorb_totalLen, BitVec.toNat_add,
    BitVec.toNat_ofNat] at *
  omega

theorem ctxInit_counted (v : Variant) : (ctxInit v).Counted := by simp [DigestCtx.Counted]

@[simp] theorem execAll_nil (s : State) : execAll [] s = .next s := rfl

/-- Commands after a command that goes on run from where it went. -/
theorem execAll_cons_of_next {i : Instr} {is : List Instr} {s t : State} (h : exec i s = .next t) :
    execAll (i :: is) s = execAll is t := by
  simp [execAll, h]

end Sys2Proof.Machine
end

