-- ==== Sys2Proof/Laws/PerInstr.lean ====
section
/-! SUPPORT. Statements made for every command, one lemma per constructor. `EncodedFits`: a well-formed command is
presented by a request that the interface can carry (20_memory.md R51). -/

namespace Sys2Proof.Laws.EncodedFits

/-- The statement about one command. -/
def Statement (i : Instr) : Prop := i.wf = true → (encode i).wf = true

theorem init (v : Variant) : Statement (.init v) := fun _ => rfl
theorem absorb (b : List Byte) : Statement (.absorb b) := fun h =>
  (Bool.true_and _).trans (h : streamOk b = true)
theorem finalize : Statement .finalize := fun _ => rfl
theorem hash (v : Variant) (b : List Byte) : Statement (.hash v b) := fun h =>
  (Bool.true_and _).trans (h : streamOk b = true)
theorem hmacInit (v : Variant) (a : List Byte) : Statement (.hmacInit v a) := fun h =>
  (Bool.and_true _).trans (h : streamOk a = true)
theorem hmacUpdate (b : List Byte) : Statement (.hmacUpdate b) := fun h =>
  (Bool.true_and _).trans (h : streamOk b = true)
theorem hmacFinish : Statement .hmacFinish := fun _ => rfl
theorem hmacReset : Statement .hmacReset := fun _ => rfl
theorem hmac (v : Variant) (a b : List Byte) : Statement (.hmac v a b) := fun h => h
theorem deriveKey (a b : List Byte) (iter : BitVec 32) (klen : Quad) : Statement (.deriveKey a b iter klen) :=
  fun h => h

end Sys2Proof.Laws.EncodedFits
end

