-- ==== Sys2Proof/Laws/Work.lean ====
section
/-! SUPPORT. The counted functions give the values of the functions they count, and how much each of them counts. -/

namespace Sys2Proof.Machine

variable {α β : Type} (x : Counted α) (f : α → Counted β) (g : α → β) (a : α)

@[simp] theorem Counted.given_value : (Counted.given a).value = a := rfl
@[simp] theorem Counted.given_compressions : (Counted.given a).compressions = 0 := rfl
@[simp] theorem Counted.given_macs : (Counted.given a).macs = 0 := rfl
@[simp] theorem Counted.andThen_value : (x.andThen f).value = (f x.value).value := rfl
@[simp] theorem Counted.andThen_compressions :
    (x.andThen f).compressions = x.compressions + (f x.value).compressions := rfl
@[simp] theorem Counted.andThen_macs : (x.andThen f).macs = x.macs + (f x.value).macs := rfl
@[simp] theorem Counted.map_value : (x.map g).value = g x.value := rfl
@[simp] theorem Counted.map_compressions : (x.map g).compressions = x.compressions := rfl
@[simp] theorem Counted.map_macs : (x.map g).macs = x.macs := rfl
@[simp] theorem Counted.asMac_value : x.asMac.value = x.value := rfl
@[simp] theorem Counted.asMac_compressions : x.asMac.compressions = x.compressions := rfl
@[simp] theorem Counted.asMac_macs : x.asMac.macs = x.macs + 1 := rfl

/-- A fold over blocks evaluates `Compress` once for each, and no `HmacFn`. -/
theorem countedFold_eq (h : HashWords) (blocks : List (List Byte)) :
    countedFold h blocks = ⟨blocks.foldl compress h, blocks.length, 0⟩ := by
  induction blocks generalizing h with
  | nil => rfl
  | cons b bs ih => simp [countedFold, ih, countedCompress, Counted.andThen, Nat.add_comm]

theorem countedAbsorb_eq (c : DigestCtx) (data : List Byte) :
    countedAbsorb c data = ⟨ctxAbsorb c data, (c.buffer.length + data.length) / 64, 0⟩ := by
  simp [countedAbsorb, countedFold_eq, Counted.map, ctxAbsorb]

theorem countedFinalize_eq (c : DigestCtx) :
    countedFinalize c = ⟨ctxFinalize c, (lastBytes c).length / 64, 0⟩ := by
  simp [countedFinalize, countedFold_eq, Counted.map, ctxFinalize]

@[simp] theorem countedHash_value (m : List Byte) (v : Variant) : (countedHash m v).value = hashFn m v := by
  simp [countedHash, countedAbsorb_eq, countedFinalize_eq, hashFn]

@[simp] theorem countedBlockKey_value (key : List Byte) (v : Variant) :
    (countedBlockKey key v).value = blockKey key v := by
  unfold countedBlockKey blockKey
  split <;> simp

@[simp] theorem countedStart_value (ipad : List Byte) (v : Variant) :
    (countedStart ipad v).value = hmacStart ipad v := by
  simp [countedStart, countedAbsorb_eq, hmacStart]

@[simp] theorem countedFinish_value (inner : DigestCtx) (opad : List Byte) (v : Variant) :
    (countedFinish inner opad v).value = hmacFinishFn inner opad v := by
  simp [countedFinish, countedAbsorb_eq, countedFinalize_eq, hmacFinishFn]

@[simp] theorem countedHmac_value (key msg : List Byte) (v : Variant) :
    (countedHmac key msg v).value = hmacFn key msg v := by
  rw [countedHmac, Counted.asMac_value, Counted.andThen_value, Counted.andThen_value, Counted.andThen_value,
    countedFinish_value, countedAbsorb_eq, countedStart_value, countedBlockKey_value, hmacFn, keyIpad, keyOpad]

/-- One MAC is one evaluation of `HmacFn`. -/
@[simp] theorem countedHmac_macs (key msg : List Byte) (v : Variant) : (countedHmac key msg v).macs = 1 := by
  unfold countedHmac countedBlockKey
  split <;> simp [countedStart, countedFinish, countedHash, countedAbsorb_eq, countedFinalize_eq]

@[simp] theorem countedLoop_value (password : List Byte) (n : Nat) (u t : List Byte) :
    (countedLoop password n u t).value = pbkdfLoop password n u t := by
  induction n generalizing u t with
  | zero => rfl
  | succ n ih => simp [countedLoop, pbkdfLoop, ih]

@[simp] theorem countedLoop_macs (password : List Byte) (n : Nat) (u t : List Byte) :
    (countedLoop password n u t).macs = n := by
  induction n generalizing u t with
  | zero => rfl
  | succ n ih => simp [countedLoop, ih, Nat.add_comm]

@[simp] theorem countedBlock_value (password salt : List Byte) (c i : Nat) :
    (countedBlock password salt c i).value = pbkdfBlock password salt c i := by
  simp [countedBlock, pbkdfBlock]

theorem countedBlock_macs (password salt : List Byte) {c : Nat} (i : Nat) (hc : 1 ≤ c) :
    (countedBlock password salt c i).macs = c := by
  simp only [countedBlock, Counted.andThen_macs, countedHmac_macs, countedLoop_macs]
  omega

@[simp] theorem countedBlocks_value (password salt : List Byte) (c : Nat) (ks : List Nat) :
    (countedBlocks password salt c ks).value = ks.flatMap fun k => pbkdfBlock password salt c (k + 1) := by
  induction ks with
  | nil => rfl
  | cons k ks ih => simp [countedBlocks, ih]

theorem countedBlocks_macs (password salt : List Byte) {c : Nat} (ks : List Nat) (hc : 1 ≤ c) :
    (countedBlocks password salt c ks).macs = ks.length * c := by
  induction ks with
  | nil => simp [countedBlocks]
  | cons k ks ih =>
    simp only [countedBlocks, Counted.andThen_macs, Counted.map_macs, countedBlock_macs _ _ _ hc, ih, List.length_cons,
      Nat.succ_mul]
    omega

end Sys2Proof.Machine
end

