-- ==== Sys2Proof/Machine/Text.lean ====
section
/-! DEFINITION. The line syntax the spec writes commands and responses in (30_encoding.md R77). It carries no meaning
beyond the command itself, and no step reads it. Byte sequences are written in hexadecimal. -/

namespace Sys2Proof.Machine

/-- One hexadecimal digit. -/
def hexDigit (n : Nat) : Char := Char.ofNat (if n < 10 then 48 + n else 87 + n)

/-- A byte sequence in hexadecimal, first byte first. -/
def hexText (s : List Byte) : List Char :=
  s.flatMap fun b => [hexDigit (b.toNat / 16), hexDigit (b.toNat % 16)]

/-- A byte-sequence operand: `empty`, or `hex:` and its bytes. -/
def bytesText (s : List Byte) : List Char :=
  if s.isEmpty then ['e', 'm', 'p', 't', 'y'] else ['h', 'e', 'x', ':'] ++ hexText s

/-- The variant suffix. -/
def variantText : Variant → String
  | .sha256 => ".256"
  | .sha224 => ".224"

/-- A command's line, without its response. -/
def commandText : Instr → String
  | .init v => "INIT" ++ variantText v
  | .absorb b => "ABSORB B=" ++ String.ofList (bytesText b)
  | .finalize => "FINALIZE"
  | .hash v b => "HASH" ++ variantText v ++ " B=" ++ String.ofList (bytesText b)
  | .hmacInit v a => "HMAC_INIT" ++ variantText v ++ " A=" ++ String.ofList (bytesText a)
  | .hmacUpdate b => "HMAC_UPDATE B=" ++ String.ofList (bytesText b)
  | .hmacFinish => "HMAC_FINISH"
  | .hmacReset => "HMAC_RESET"
  | .hmac v a b =>
    "HMAC" ++ variantText v ++ " A=" ++ String.ofList (bytesText a) ++ " B=" ++ String.ofList (bytesText b)
  | .deriveKey a b iter klen =>
    "DERIVE_KEY A=" ++ String.ofList (bytesText a) ++ " B=" ++ String.ofList (bytesText b) ++
      " iter=" ++ toString iter.toNat ++ " klen=" ++ toString klen.toNat

/-- The name of a status (60_exceptions.md R171). -/
def statusText : Status → String
  | .ok => "OK"
  | .errIllegalCmd => "ERR_ILLEGAL_CMD"
  | .errSequence => "ERR_SEQUENCE"
  | .errIterZero => "ERR_ITER_ZERO"
  | .errLengthRange => "ERR_LENGTH_RANGE"

/-- A response: the status and, where there is any, the output in hexadecimal. -/
def responseText (r : Response) : String :=
  "-> " ++ statusText r.status ++ (if r.out.isEmpty then "" else " ") ++ String.ofList (hexText r.out)

end Sys2Proof.Machine
end

