-- ==== Sys2Proof/Tests/Slice0.lean ====
section
/-! SUPPORT. Tests. Expected values are the spec's: the encodings of 30_encoding.md R72 and the vectors V<n> and
programs P<n> of 95_test_vectors.md. After them, a witness for each statement that has hypotheses. The theorems are
elaborated one after another: many are kernel evaluations, and side by side each would hold a thread of its own. -/

set_option Elab.async false

namespace Sys2Proof.Tests

open Sys2Proof.Machine Sys2Proof.Claims

/-- The response a command ended with. -/
def answerOf : Result → Option Response
  | .next t => t.responses.getLast?
  | .fault _ => none
  | .refused _ => none

/-- The machine after a command. -/
def after : Result → State
  | .next t => t
  | .fault _ => State.reset
  | .refused _ => State.reset

/-- A byte sequence from a hexadecimal number of `n` bytes. -/
def hexBytes : Nat → Nat → List Byte
  | 0, _ => []
  | n + 1, v => hexBytes n (v / 256) ++ [BitVec.ofNat 8 v]

/-- `"abc"`. -/
def abc : List Byte := [0x61, 0x62, 0x63]

/-- `"password"`. -/
def password : List Byte := [0x70, 0x61, 0x73, 0x73, 0x77, 0x6f, 0x72, 0x64]

/-- `"salt"`. -/
def salt : List Byte := [0x73, 0x61, 0x6c, 0x74]

/-- `"Hi There"`. -/
def hiThere : List Byte := [0x48, 0x69, 0x20, 0x54, 0x68, 0x65, 0x72, 0x65]

/-- `DCTX` has absorbed `"abc"`. -/
def hashing (v : Variant) : State :=
  { State.reset with dctx := ⟨.active, ⟨v, initialHash v, 3, abc⟩⟩ }

/-- `HCTX` in a given phase, under the empty key, with nothing absorbed after the pad. -/
def keyed (p : HmacPhase) : State :=
  { State.reset with
    hctx := ⟨p, .sha256, List.replicate 64 0x36, List.replicate 64 0x5C, ⟨.sha256, initialHash .sha256, 64, []⟩⟩ }

/-- The host presents one command, and nothing after it. -/
def presenting (r : Request) : State := { State.reset with moves := [.command r] }

/-! ## Well-formedness: an ill-formed term for each check -/

/-- A byte sequence one byte too long for the interface (R51); its length is what matters, so it stays a name. -/
def TooLong (s : List Byte) : Prop := s.length = 2 ^ 64

theorem exists_of_length (n : Nat) : ∃ s : List Byte, s.length = n := ⟨List.replicate n 0, List.length_replicate⟩
theorem witness_TooLong : ∃ s, TooLong s := exists_of_length (2 ^ 64)

theorem test_tooLong_refused {s : List Byte} (h : TooLong s) : streamOk s = false := by
  unfold TooLong at h
  simp [streamOk, Config.streamBound, h]
theorem test_longest_accepted {s : List Byte} (h : s.length = 2 ^ 64 - 1) : streamOk s = true := by
  simp [streamOk, Config.streamBound, h]
theorem test_wf_absorb {s : List Byte} (h : TooLong s) : (Instr.absorb s).wf = false := test_tooLong_refused h
theorem test_wf_hash {s : List Byte} (h : TooLong s) : (Instr.hash .sha256 s).wf = false := test_tooLong_refused h
theorem test_wf_hmacInit {s : List Byte} (h : TooLong s) : (Instr.hmacInit .sha256 s).wf = false :=
  test_tooLong_refused h
theorem test_wf_hmacUpdate {s : List Byte} (h : TooLong s) : (Instr.hmacUpdate s).wf = false :=
  test_tooLong_refused h
theorem test_wf_hmac {s : List Byte} (h : TooLong s) :
    (Instr.hmac .sha256 s []).wf = false ∧ (Instr.hmac .sha256 [] s).wf = false := by
  simp [Instr.wf, test_tooLong_refused h]
theorem test_wf_deriveKey {s : List Byte} (h : TooLong s) :
    (Instr.deriveKey s [] 1 1).wf = false ∧ (Instr.deriveKey [] s 1 1).wf = false := by
  simp [Instr.wf, test_tooLong_refused h]
theorem test_wf_request {s : List Byte} (h : TooLong s) :
    (Request.wf ⟨0x10, s, [], 0, 0⟩) = false ∧ (Request.wf ⟨0x10, [], s, 0, 0⟩) = false := by
  simp [Request.wf, test_tooLong_refused h]
theorem test_wf_accepts : (Instr.deriveKey password salt 0 0).wf = true := by decide

/-! ## Decoding: words written out bit by bit from R72 (V50) -/

theorem test_decode_init : decode ⟨0b00010000, [], [], 0, 0⟩ = .ok (.init .sha256) := by decide
theorem test_decode_init224 : decode ⟨0b00010001, [], [], 0, 0⟩ = .ok (.init .sha224) := by decide
theorem test_decode_absorb : decode ⟨0b00100000, [1], [2], 3, 4⟩ = .ok (.absorb [2]) := by decide
theorem test_decode_finalize : decode ⟨0b00110000, [], [], 0, 0⟩ = .ok .finalize := by decide
theorem test_decode_hash : decode ⟨0b01000001, [1], [2], 3, 4⟩ = .ok (.hash .sha224 [2]) := by decide
theorem test_decode_hmacInit : decode ⟨0b01010000, [1], [2], 3, 4⟩ = .ok (.hmacInit .sha256 [1]) := by decide
theorem test_decode_hmacUpdate : decode ⟨0b01100000, [1], [2], 3, 4⟩ = .ok (.hmacUpdate [2]) := by decide
theorem test_decode_hmacFinish : decode ⟨0b01110000, [], [], 0, 0⟩ = .ok .hmacFinish := by decide
theorem test_decode_hmacReset : decode ⟨0b10000000, [], [], 0, 0⟩ = .ok .hmacReset := by decide
theorem test_decode_hmac : decode ⟨0b10010000, [1], [2], 3, 4⟩ = .ok (.hmac .sha256 [1] [2]) := by decide
theorem test_decode_deriveKey : decode ⟨0b10100000, [1], [2], 3, 4⟩ = .ok (.deriveKey [1] [2] 3 4) := by decide
theorem test_illegal_zero : decode ⟨0x00, [], [], 0, 0⟩ = .error .noSuchOp := by decide
theorem test_illegal_b0 : decode ⟨0xB0, [], [], 0, 0⟩ = .error .noSuchOp := by decide
theorem test_illegal_rsv : decode ⟨0x12, [], [], 0, 0⟩ = .error .reservedBits := by decide
theorem test_illegal_variant : decode ⟨0x21, [], [], 0, 0⟩ = .error .variantNotTaken := by decide
theorem test_illegal_deriveKey224 : decode ⟨0xA1, [], [], 0, 0⟩ = .error .variantNotTaken := by decide
/-- V50: the legal bytes among all 256. -/
theorem test_legal_bytes :
    (List.range 256).filter (fun n => (decodeTableWord 8 n).isSome) = legalBytes.map BitVec.toNat := by
  decide +kernel

/-! ## Words, padding and compression -/

/-- V11, row `12345678`. -/
theorem test_sigmas : sigma0 0x12345678 = 0xe7fce6ee ∧ sigma1 0x12345678 = 0xa1f78649 ∧
    bigSigma0 0x12345678 = 0x66146474 ∧ bigSigma1 0x12345678 = 0x3561abda := by decide
/-- V12, row 6. -/
theorem test_ch : ch 0x510e527f 0x9b05688c 0x1f83d9ab = 0x1f85c98c := by decide
/-- V12, row 7. -/
theorem test_maj : maj 0x6a09e667 0xbb67ae85 0x3c6ef372 = 0x3a6fe667 := by decide
/-- V10: the `"abc"` block. -/
def abcBlock : List Byte := abc ++ [0x80] ++ List.replicate 59 0 ++ [0x18]
/-- V10, V16 row `n = 3`. -/
theorem test_pad_abc : abc ++ pad 3 3 = abcBlock := by decide
/-- V16 row `n = 56`: two blocks. -/
theorem test_pad_56 : padZeros 55 = 0 ∧ padZeros 56 = 63 ∧ (pad 56 56).length = 72 := by decide
/-- V16, R114: the trailer wraps at `2^61` bytes. -/
theorem test_pad_wraps : (pad 1 2305843009213693953).drop 55 = [0, 0, 0, 0, 0, 0, 0, 8] := by decide
/-- V10. -/
theorem test_schedule : (schedule abcBlock).getD 17 0 = 0x000f0000 ∧ (schedule abcBlock).getD 63 0 = 0x12b1edeb := by
  decide +kernel
/-- V10: the variables after round 0. -/
theorem test_round : round 0x428a2f98 0x61626380 (initialHash .sha256) =
    ⟨0x5d6aebcd, 0x6a09e667, 0xbb67ae85, 0x3c6ef372, 0xfa2a4622, 0x510e527f, 0x9b05688c, 0x1f83d9ab⟩ := by decide
/-- V14, last row. -/
theorem test_compress_zero : compress ⟨0, 0, 0, 0, 0, 0, 0, 0⟩ (List.replicate 64 0) =
    ⟨0x7ca51614, 0x425c3ba8, 0xce54dd2f, 0xc2020ae7, 0xb6e574d1, 0x98136d0f, 0xae7e26cc, 0xbf0be7a6⟩ := by
  decide +kernel
/-- V14, `IV224`, sixty-four bytes `0x61`. -/
theorem test_compress_224 : compress (initialHash .sha224) (List.replicate 64 0x61) =
    ⟨0xb0b6de39, 0x2f2c8855, 0x64836d86, 0xde6b170b, 0xe2ead062, 0x74261737, 0xef2c10e4, 0x57358d12⟩ := by
  decide +kernel

/-! ## The commands, one step each -/

/-- R110's example. -/
theorem test_init : (after (exec (.init .sha224) (hashing .sha256))).dctx =
    ⟨.active, ⟨.sha224, initialHash .sha224, 0, []⟩⟩ := by decide
/-- R111's example. -/
theorem test_absorb : (after (exec (.absorb abc) (after (exec (.init .sha256) State.reset)))).dctx =
    ⟨.active, ⟨.sha256, initialHash .sha256, 3, abc⟩⟩ := by decide
/-- V20, row 65: a block and one byte more. -/
theorem test_absorb_block :
    (after (exec (.absorb (List.replicate 65 0x61)) (after (exec (.init .sha256) State.reset)))).dctx =
    ⟨.active, ⟨.sha256, ⟨0xdf5bb81c, 0xe81e0626, 0xfb45a894, 0x4fd40f31, 0xb25e6816, 0xd6d499c1, 0xab904929,
      0x00635e66⟩, 65, [0x61]⟩⟩ := by decide +kernel
/-- V2, R112's example. -/
theorem test_finalize : answerOf (exec .finalize (hashing .sha256)) = some ⟨.ok,
    hexBytes 32 0xba7816bf8f01cfea414140de5dae2223b00361a396177a9cb410ff61f20015ad⟩ := by decide +kernel
/-- V51, row 3. -/
theorem test_finalize_idle : exec .finalize State.reset = .next (responded State.reset .errSequence []) := rfl
/-- V3. -/
theorem test_hash224 : answerOf (exec (.hash .sha224 abc) State.reset) = some ⟨.ok,
    hexBytes 28 0x23097d223405d8228642a477bda255b32aadbce4bda0b3f7e36c9da7⟩ := by decide +kernel
/-- V17, `n = 56`: two final blocks. -/
theorem test_hash_56 : answerOf (exec (.hash .sha256 (List.replicate 56 0x61)) State.reset) = some ⟨.ok,
    hexBytes 32 0xb35439a4ac6f0948b6d6f9e3c6af0f5f590ce20f1bde7090ef7970686ec6738a⟩ := by decide +kernel
/-- P2: the pads of the key `"Jefe"`. -/
theorem test_hmacInit : let h := (after (exec (.hmacInit .sha256 [0x4a, 0x65, 0x66, 0x65]) State.reset)).hctx
    h.ipad = [0x7c, 0x53, 0x50, 0x53] ++ List.replicate 60 0x36 ∧
    h.opad = [0x16, 0x39, 0x3a, 0x39] ++ List.replicate 60 0x5c ∧ h.inner.totalLen = 64 ∧
    h.inner.state.w0 = 0x655da7fa := by decide +kernel
/-- P2: a long key is hashed, here to 28 bytes. -/
theorem test_hmacInit_long :
    ((after (exec (.hmacInit .sha224 (List.replicate 131 0xaa)) State.reset)).hctx.ipad).drop 26 =
    [0x77, 0x5a] ++ List.replicate 36 0x36 := by decide +kernel
/-- R136's example: the bytes are buffered. -/
theorem test_hmacUpdate : let h := (after (exec (.hmacUpdate hiThere) (keyed .active))).hctx
    h.inner.totalLen = 72 ∧ h.inner.buffer = hiThere ∧ h.phase = .active := by decide
/-- V51, row 9. -/
theorem test_hmacUpdate_finished :
    exec (.hmacUpdate abc) (keyed .finished) = .next (responded (keyed .finished) .errSequence []) := rfl
/-- V31 row e: the empty key and the empty message, from `HMAC_INIT`. -/
theorem test_hmacFinish : answerOf (exec .hmacFinish (after (exec (.hmacInit .sha256 []) State.reset))) =
    some ⟨.ok, hexBytes 32 0xb613679a0814d9ec772f95d778c35fc5ff1697c493715653c6c712144292c5ad⟩ := by
  decide +kernel
/-- R137: the pads stay, the phase is `FINISHED`. -/
theorem test_hmacFinish_keeps : let h := (after (exec .hmacFinish (keyed .active))).hctx
    h.phase = .finished ∧ h.ipad = List.replicate 64 0x36 := by decide
/-- R138: legal in `FINISHED`. -/
theorem test_hmacReset : let h := (after (exec .hmacReset (keyed .finished))).hctx
    h.phase = .active ∧ h.inner.totalLen = 64 ∧ h.inner.buffer = [] := by decide +kernel
/-- V51, row 7. -/
theorem test_hmacReset_idle : exec .hmacReset State.reset = .next (responded State.reset .errSequence []) := rfl
/-- V4. -/
theorem test_hmac : answerOf (exec (.hmac .sha256 (List.replicate 20 0x0b) hiThere) State.reset) = some ⟨.ok,
    hexBytes 32 0xb0344c61d8db38535ca8afceaf0bf12b881dc200c9833da726e9376c2e32cff7⟩ := by decide +kernel
/-- V37: a key of 64 bytes is used as is; here its last MAC byte. -/
theorem test_hmac_key64 :
    answerOf (exec (.hmac .sha224 ((List.range 64).map (BitVec.ofNat 8)) abc) State.reset) = some ⟨.ok,
    hexBytes 28 0xd65b4a916ed998e720eee0efa6c91e623e9619f10b074f9c8a7c2d35⟩ := by decide +kernel
/-- V41, P3: two iterations, truncated. -/
theorem test_deriveKey : answerOf (exec (.deriveKey password salt 2 20) State.reset) = some ⟨.ok,
    hexBytes 20 0xae4d0c95af6b46d32d0adff928f06dd02a303f8e⟩ := by decide +kernel
/-- V42: a second block, of which one byte is kept. -/
theorem test_deriveKey_two_blocks : (pbkdf2 password salt 1 33).drop 31 = [0x7b, 0x4d] := by decide +kernel
/-- R10: `xorbytes`. -/
theorem test_xorBytes : xorBytes [0x0f, 0xff] [0x33, 0xff] = [0x3c, 0x00] := by decide
/-- V51: both causes at once. -/
theorem test_deriveKey_priority :
    answerOf (exec (.deriveKey password salt 0 137438953441) State.reset) = some ⟨.errIterZero, []⟩ := by decide

/-! ## Steps -/

/-- V51: an illegal byte in a step. -/
theorem test_step_illegal : answerOf (step (presenting ⟨0xA1, password, salt, 1, 1⟩)) =
    some ⟨.errIllegalCmd, []⟩ := by decide
/-- P5: a reset in the middle of a stream. -/
theorem test_step_reset : let t := after (step { hashing .sha224 with moves := [.reset] })
    t.dctx.phase = .idle ∧ t.moves = [] := by decide
/-- The word the host places is the command the next step runs. -/
theorem test_withFetchWord : after (step (State.reset.withFetchWord 8 0x11)) =
    after (exec (.init .sha224) State.reset) := by decide
/-- R77's example of a line. -/
theorem test_text : commandText (.hmac .sha256 (List.replicate 2 0x0b) []) = "HMAC.256 A=hex:0b0b B=empty" := by
  decide +kernel
/-- R77, V2: the start of a response line. -/
theorem test_response_text : responseText ⟨.ok, [0xba, 0x78]⟩ = "-> OK ba78" := by decide +kernel

/-! ## Witnesses: the hypotheses of each statement are met -/

theorem witness_DecodeEncodeAgree : decode ⟨0xA0, [1], [2], 3, 4⟩ = .ok (.deriveKey [1] [2] 3 4) ∧
    decode ⟨0x30, [1], [2], 3, 4⟩ = .ok .finalize := by decide
theorem witness_OpcodeMap : ∀ c ∈ legalBytes, (decodeTableWord 8 c.toNat).isSome = true := by decide
theorem witness_DecodingReadsOnlyTheCommandWord :
    (⟨0x20, [], [1], 0, 0⟩ : Request) ≠ ⟨0x20, [], [], 0, 0⟩ ∧
    decode ⟨0x20, [], [1], 0, 0⟩ = .ok (.absorb [1]) ∧ decode ⟨0x21, [], [1], 0, 0⟩ = .error .variantNotTaken := by
  decide
theorem witness_StepRunsDecodedCommand : (presenting ⟨0x20, [], abc, 0, 0⟩).moves =
    .command ⟨0x20, [], abc, 0, 0⟩ :: [] ∧ decode ⟨0x20, [], abc, 0, 0⟩ = .ok (.absorb abc) := by decide
theorem witness_IllegalByteIsRejected : (presenting ⟨0xFF, abc, [], 0, 0⟩).moves =
    .command ⟨0xFF, abc, [], 0, 0⟩ :: [] ∧ (0xFF : Byte) ∉ legalBytes := by decide
theorem witness_HostResetPutsEngineIdle :
    ({ hashing .sha256 with moves := [.reset] } : State).moves = .reset :: [] := rfl
theorem witness_EngineWaitsForCommand : (hashing .sha256).moves = [] := rfl
theorem witness_CommandsRunInOrder :
    ({ State.reset with moves := [.command ⟨0x10, [], [], 0, 0⟩, .command ⟨0xFF, [], [], 0, 0⟩, .reset] } : State).moves =
      ([⟨0x10, [], [], 0, 0⟩, ⟨0xFF, [], [], 0, 0⟩] : List Request).map HostMove.command ++ [.reset] ∧
    decode ⟨0xFF, [], [], 0, 0⟩ = .error .reservedBits := by decide
theorem witness_DeriveKeyRejections : (0 : BitVec 32) = 0 ∧ (1 : BitVec 32) ≠ 0 ∧
    137438953440 < (137438953441 : Quad).toNat := by decide
theorem witness_RejectionChangesNothing :
    exec .finalize State.reset = .next (responded State.reset .errSequence []) ∧
    (responded State.reset .errSequence []).responses = State.reset.responses ++ [⟨.errSequence, []⟩] ∧
    Status.errSequence ≠ .ok ∧
    step (presenting ⟨0x00, [], [], 0, 0⟩) = .next (responded State.reset .errIllegalCmd []) :=
  ⟨rfl, rfl, by decide, rfl⟩
theorem witness_WordOperators : 31 ≤ 31 ∧ shr 0xFFFFFFFF 31 = 1 ∧ rotr 1 1 = 0x80000000 ∧ rotr 0x80000000 31 = 1 := by
  decide
theorem witness_BigEndianConversions : 4 * 0 + 4 ≤ abc.length + 1 ∧ wordBe (abc ++ [0x80]) 0 = 0x61626380 := by decide
/-- R91, the low bit goes round to bit 31 - 6 and bit 31 - 17. -/
theorem witness_SigmaFunctionsBitwise : 31 < 32 ∧ sigma0 0x00000001 = 0x02004000 := by decide
theorem witness_ConstantsAreRootFractions : 63 < 64 ∧ primes.getD 63 0 = 311 ∧ primes.getD (7 + 8) 0 = 53 ∧
    (7 : Nat) < 8 := by decide
theorem witness_ScheduleRecurrence : 15 < 16 ∧ 16 ≤ 16 ∧ 63 < 64 ∧
    (schedule abcBlock).getD 15 0 = 0x18 ∧ (schedule abcBlock).getD 16 0 = 0x61626380 := by decide +kernel
theorem witness_CompressRunsTheRounds : 63 < 64 ∧ (initialHash .sha256).w0 = 0x6a09e667 := by decide
theorem witness_AbsorbIsChunkInvariant : (List.replicate 63 (0 : Byte)).length < 64 := by decide
theorem witness_PaddingRule : 0 ≤ 63 ∧ 55 ≤ 55 ∧ 55 ≤ 63 ∧ ¬ 56 ≤ 55 ∧ 63 ≤ 63 := by decide
theorem witness_FinalizeRule : (hashing .sha256).dctx.ctx.buffer.length ≤ 63 := by decide
theorem witness_SerialisationRule : 7 < 8 ∧ 3 < 4 ∧ (serialise (initialHash .sha256)).getD (4 * 7 + 3) 0 = 0x19 := by
  decide
theorem witness_AbsorbCompletes : (hashing .sha256).dctx.phase = .active ∧ State.reset.dctx.phase = .idle ∧
    (hashing .sha256).dctx.ctx.buffer.length < 64 := by decide
theorem witness_FinalizeCompletes : (hashing .sha224).dctx.phase = .active ∧ State.reset.dctx.phase = .idle ∧
    (hashing .sha224).dctx.ctx.buffer.length ≤ 63 := by decide
theorem witness_KeyPadsRule : 63 < 64 ∧ (List.replicate 65 (1 : Byte)).length > 64 ∧
    ¬ (List.replicate 64 (1 : Byte)).length > 64 := by decide
theorem witness_HmacStartIsOneBlock : (List.replicate 64 (0x36 : Byte)).length = 64 := by decide
theorem witness_LongKeyActsAsItsHash : 64 < (List.replicate 65 (0x78 : Byte)).length := by decide
theorem witness_HmacUpdateCompletes : (keyed .active).hctx.phase = .active ∧ (keyed .finished).hctx.phase = .finished ∧
    State.reset.hctx.phase = .idle ∧ (keyed .active).hctx.inner.buffer.length < 64 := by decide
theorem witness_HmacFinishCompletes : (keyed .active).hctx.phase = .active ∧ (keyed .finished).hctx.phase = .finished ∧
    State.reset.hctx.phase = .idle := by decide
theorem witness_HmacResetCompletes : (keyed .active).hctx.phase = .active ∧ (keyed .finished).hctx.phase = .finished ∧
    State.reset.hctx.phase = .idle := by decide
theorem witness_PbkdfBlockRule : 1 ≤ 1 ∧ 1 ≤ 2 ^ 32 - 1 ∧ 2 ^ 32 - 1 ≤ 2 ^ 32 - 1 ∧ 31 < 32 := by
  decide
theorem witness_Pbkdf2Rule : 1 ≤ 1 ∧ 137438953440 ≤ 137438953440 ∧ 0 ≤ 137438953440 := by decide
theorem witness_Pbkdf2Truncation : 20 ≤ 33 := by decide
theorem witness_DeriveKeyCompletes : (1 : BitVec 32) ≠ 0 ∧ (137438953440 : Quad).toNat ≤ 137438953440 ∧
    (0 : BitVec 32) = 0 ∧ 137438953440 < (137438953441 : Quad).toNat ∧ (0xA1 : Byte) = 0xA1 := by decide
theorem witness_PhaseTransitions :
    digestTable (.absorb abc) (hashing .sha256).dctx.phase = some (.active, .ok) ∧
    digestTable .hmacReset (hashing .sha256).dctx.phase = none ∧
    macTable .hmacReset (keyed .finished).hctx.phase = some (.active, .ok) ∧
    macTable (.absorb abc) (keyed .finished).hctx.phase = none := by decide
theorem witness_ContextsAreSeparate :
    exec (.init .sha256) State.reset = .next (after (exec (.init .sha256) State.reset)) ∧
    usesHctx (.init .sha256) = false ∧
    exec .hmacReset State.reset = .next (after (exec .hmacReset State.reset)) ∧ usesDctx .hmacReset = false :=
  ⟨rfl, rfl, rfl, rfl⟩
theorem witness_OnlyHmacInitWritesPads : LoadsNoKey (.hmacUpdate abc) ∧
    exec (.hmacUpdate abc) (keyed .active) = .next (after (exec (.hmacUpdate abc) (keyed .active))) :=
  ⟨fun _ _ h => Instr.noConfusion h, rfl⟩
theorem witness_OneShotCommandsArePure : usesDctx (.hash .sha256 abc) = false ∧ usesHctx (.hash .sha256 abc) = false ∧
    usesDctx (.hmac .sha256 abc abc) = false ∧ usesHctx (.hmac .sha256 abc abc) = false ∧
    usesDctx (.deriveKey abc abc 1 1) = false ∧ usesHctx (.deriveKey abc abc 1 1) = false := by decide
theorem witness_WorkCounts :
    exec .finalize State.reset = .next (responded State.reset .errSequence []) ∧
    (keyed .finished).hctx.phase ≠ .idle ∧ (keyed .finished).hctx.ipad.length = 64 ∧
    (hashing .sha256).dctx.phase = .active ∧ (hashing .sha256).dctx.ctx.buffer.length ≤ 63 ∧
    (keyed .active).hctx.phase = .active ∧ (keyed .active).hctx.opad.length = 64 ∧
    (keyed .active).hctx.inner.buffer.length ≤ 63 ∧ (1 : BitVec 32) ≠ 0 ∧
    (137438953440 : Quad).toNat ≤ 137438953440 :=
  ⟨rfl, by decide⟩
/-- A machine in use meets the invariant, and goes on. -/
theorem witness_EveryStepKeepsInvariant : (presenting ⟨0x10, [], [], 0, 0⟩).Inv ∧
    (hashing .sha256).Inv ∧ step (hashing .sha256) = .next (hashing .sha256) := by
  refine ⟨?_, ?_, rfl⟩ <;> constructor <;>
    simp [presenting, hashing, abc, State.reset, Dctx.atReset, Hctx.atReset, DigestCtx.atReset, DigestCtx.Bounded,
      DigestCtx.Counted, HostMove.wf, Request.wf, streamOk, Config.streamBound]
/-- A machine with a digest stream and a MAC stream in use, and one more move to make. -/
theorem witness_EveryStepKeepsStreams :
    let s := { after (exec (.hmacInit .sha256 abc) (hashing .sha224)) with moves := [.reset] }
    s.Streams ∧ s.dctx.phase = .active ∧ s.hctx.phase = .active ∧ ∃ t, step s = .next t :=
  ⟨⟨fun _ => ⟨.sha224, abc, by decide⟩, fun _ => ⟨abc, rfl, rfl⟩, fun _ => ⟨[], by decide +kernel⟩⟩, rfl, rfl, _, rfl⟩
/-- Two machines that differ in what their idle `DCTX` holds. -/
theorem witness_UnspecifiedFieldsAreNeverSeen :
    let s := State.reset
    let t := { State.reset with dctx := ⟨.idle, ⟨.sha224, initialHash .sha224, 9, abc⟩⟩ }
    s.Agrees t ∧ s ≠ t :=
  ⟨⟨⟨rfl, fun h => DigestPhase.noConfusion h⟩, ⟨rfl, fun _ => ⟨rfl, rfl, rfl⟩, fun _ => rfl⟩, rfl, rfl⟩, by decide⟩
theorem witness_StreamedDigestEqualsHash :
    ∀ i ∈ [Instr.absorb abc, .hmacReset, .hash .sha224 [], .absorb []], KeepsDigestStream i := by
  simp [KeepsDigestStream]
theorem witness_StreamedMacEqualsHmac :
    ∀ i ∈ [Instr.hmacUpdate abc, .init .sha224, .hash .sha224 [], .hmacUpdate []], KeepsMacStream i := by
  simp [KeepsMacStream, LoadsNoKey]
theorem witness_HmacResetEqualsReinit :
    let s0 := after (exec (.hmacInit .sha256 abc) State.reset)
    (∀ i ∈ [Instr.hmacUpdate abc, .hmacFinish], LoadsNoKey i) ∧ exec (.hmacInit .sha256 abc) State.reset = .next s0 ∧
    execAll [.hmacUpdate abc, .hmacFinish] s0 = .next (after (execAll [.hmacUpdate abc, .hmacFinish] s0)) :=
  ⟨by simp [LoadsNoKey], rfl, rfl⟩

end Sys2Proof.Tests
end

section
/-! SUPPORT. The word operators and the big-endian conversions as numbers (00_scope.md R9, R11). -/

namespace Sys2Proof.Machine

open Sys2Proof.Claims

/-- `shr(x, n)` is `floor(x / 2^n)` (R9). -/
@[simp] theorem shr_toNat (x : Word) (n : Nat) : (shr x n).toNat = x.toNat / 2 ^ n := by
  simp [shr, Nat.shiftRight_eq_div_pow]

/-- The two halves of a rotation as numbers (R9). -/
theorem rotr_toNat (x : Word) (n : Nat) :
    (rotr x n).toNat = x.toNat / 2 ^ n ||| x.toNat * 2 ^ (32 - n) % 2 ^ 32 := by
  rw [rotr, BitVec.toNat_or, shr_toNat, BitVec.toNat_shiftLeft, Nat.shiftLeft_eq]

/-- One more byte at the low end of a word. -/
theorem append_byte_toNat {n : Nat} (x : BitVec n) (b : Byte) : (x ++ b).toNat = 256 * x.toNat + b.toNat := by
  rw [BitVec.toNat_append, ← Nat.shiftLeft_add_eq_or_of_lt b.isLt, Nat.shiftLeft_eq, Nat.mul_comm]

/-- `word_be(s, k)` weighs its four bytes from the most significant down (R11). -/
theorem wordBe_toNat (s : List Byte) (k : Nat) :
    (wordBe s k).toNat = (s.getD (4 * k) 0).toNat * 2 ^ 24 + (s.getD (4 * k + 1) 0).toNat * 2 ^ 16 +
      (s.getD (4 * k + 2) 0).toNat * 2 ^ 8 + (s.getD (4 * k + 3) 0).toNat := by
  simp only [wordBe, append_byte_toNat]
  omega

/-- One more byte at the end of a sequence read as a number. -/
theorem beValue_concat (s : List Byte) (b : Byte) : beValue (s ++ [b]) = 256 * beValue s + b.toNat := by
  simp [beValue]

/-- A concatenation read as a number: the front counts for as many bytes as stand behind it. -/
theorem beValue_append (s t : List Byte) : beValue (s ++ t) = beValue s * 256 ^ t.length + beValue t := by
  induction t using List.reverseRecOn with
  | nil => simp [beValue]
  | append_singleton t b ih =>
    rw [← List.append_assoc, beValue_concat, beValue_concat, ih, List.length_append, List.length_singleton, pow_succ]
    ring

/-- The bytes of `BE32(w)` have the value of `w` (R11). -/
@[simp] theorem beValue_be32 (w : Word) : beValue (be32 w) = w.toNat := by
  have hw := w.isLt
  simp only [beValue, be32, List.foldl_cons, List.foldl_nil, BitVec.extractLsb'_toNat, Nat.shiftRight_eq_div_pow]
  omega

/-- The bytes of `BE64(v)` have the value of `v` (R11). -/
@[simp] theorem beValue_be64 (v : Quad) : beValue (be64 v) = v.toNat := by
  have hv := v.isLt
  rw [be64, beValue_append, beValue_be32, beValue_be32, be32_length, BitVec.extractLsb'_toNat,
    BitVec.extractLsb'_toNat, Nat.shiftRight_eq_div_pow, Nat.shiftRight_eq_div_pow]
  omega

/-- `word_be` reads a sequence of four bytes as one big-endian number. -/
theorem wordBe_toNat_eq_beValue (a b c d : Byte) : (wordBe [a, b, c, d] 0).toNat = beValue [a, b, c, d] := by
  simp [wordBe, beValue, append_byte_toNat]

/-- `word_be` reads back what `BE32` wrote (R11). -/
@[simp] theorem wordBe_be32 (w : Word) : wordBe (be32 w) 0 = w :=
  BitVec.eq_of_toNat_eq ((wordBe_toNat_eq_beValue ..).trans (beValue_be32 w))

/-- Settles O16: the operators of `BitVec 32`, and the two shifts as numbers. -/
theorem wordOperators : Obligations.WordOperators :=
  ⟨BitVec.toNat_add, fun _ _ _ => ⟨BitVec.getLsbD_xor, BitVec.getLsbD_and, BitVec.getLsbD_or⟩,
    fun x n _ => shr_toNat x n, fun x n _ _ => rotr_toNat x n⟩

/-- Settles O17: each conversion read as a number, byte by byte. -/
theorem bigEndianConversions : Obligations.BigEndianConversions :=
  ⟨fun w => ⟨be32_length w, beValue_be32 w, wordBe_be32 w⟩, fun v => ⟨be64_length v, beValue_be64 v⟩,
    fun s k _ => wordBe_toNat s k⟩

end Sys2Proof.Machine
end

section
/-! SUPPORT. What one step is, by the host's next move (00_scope.md R6, 20_memory.md R60). -/

namespace Sys2Proof.Machine

/-- Settles O6: the step takes the request, and the request runs the command it decodes to. -/
theorem stepRunsDecodedCommand : Obligations.StepRunsDecodedCommand := fun s r rest i hmoves hdecode =>
  calc step s
    _ = runRequest r (s.withMoves rest) := takeMove_of_command hmoves
    _ = exec i (s.withMoves rest) := runRequest_of_decode hdecode

end Sys2Proof.Machine
end

section
/-! SUPPORT. Agreement in every specified field (00_scope.md R15, 10_state.md R36, R40, R41): each operation on the
state keeps it, so every command and every step does. -/

namespace Sys2Proof.Machine

/-! ### Contexts that agree -/

theorem Dctx.Agrees.refl (d : Dctx) : d.Agrees d := ⟨rfl, fun _ => rfl⟩

/-- Nothing but the phase of an idle `DCTX` is compared. -/
theorem Dctx.agrees_of_idle (c c' : DigestCtx) : Dctx.Agrees ⟨.idle, c⟩ ⟨.idle, c'⟩ :=
  ⟨rfl, nofun⟩

theorem Hctx.Agrees.refl (g : Hctx) : g.Agrees g := ⟨rfl, fun _ => ⟨rfl, rfl, rfl⟩, fun _ => rfl⟩

/-- The inner context of a finished `HCTX` is not compared. -/
theorem Hctx.agrees_of_finished (v : Variant) (ipad opad : List Byte) (c c' : DigestCtx) :
    Hctx.Agrees ⟨.finished, v, ipad, opad, c⟩ ⟨.finished, v, ipad, opad, c'⟩ :=
  ⟨rfl, fun _ => ⟨rfl, rfl, rfl⟩, nofun⟩

section
variable {d e : Dctx} {g h : Hctx} {s t : State}

theorem Dctx.Agrees.phase_eq (hd : d.Agrees e) : d.phase = e.phase := hd.1

/-- An active `DCTX` is compared as a whole. -/
theorem Dctx.Agrees.ctx_eq (hd : d.Agrees e) (active : d.phase = .active) : d.ctx = e.ctx := hd.2 active

theorem Hctx.Agrees.phase_eq (hg : g.Agrees h) : g.phase = h.phase := hg.1

/-- With a key loaded, the variant and the pads are compared. -/
theorem Hctx.Agrees.key_eq (hg : g.Agrees h) (keyed : g.phase ≠ .idle) :
    g.variant = h.variant ∧ g.ipad = h.ipad ∧ g.opad = h.opad := hg.2.1 keyed

/-- An active `HCTX` is compared as a whole. -/
theorem Hctx.Agrees.eq_of_active (hg : g.Agrees h) (active : g.phase = .active) : g = h := by
  obtain ⟨hphase, hkey, hinner⟩ := hg
  obtain ⟨hv, hi, ho⟩ := hkey (by simp [active])
  cases g; cases h
  simp only [Hctx.mk.injEq]
  exact ⟨hphase, hv, hi, ho, hinner active⟩

/-- Two contexts that agree on a key agree once a new computation is started under it. -/
theorem Hctx.Agrees.restart (hg : g.Agrees h) (keyed : g.phase ≠ .idle) :
    Hctx.Agrees { g with phase := .active, inner := hmacStart g.ipad g.variant }
      { h with phase := .active, inner := hmacStart h.ipad h.variant } := by
  obtain ⟨hv, hi, ho⟩ := hg.key_eq keyed
  exact ⟨rfl, fun _ => ⟨hv, hi, ho⟩, fun _ => congrArg₂ hmacStart hi hv⟩

/-! ### Machines that agree -/

theorem State.Agrees.dctx (hs : s.Agrees t) : s.dctx.Agrees t.dctx := hs.1
theorem State.Agrees.hctx (hs : s.Agrees t) : s.hctx.Agrees t.hctx := hs.2.1
theorem State.Agrees.moves (hs : s.Agrees t) : s.moves = t.moves := hs.2.2.1
theorem State.Agrees.responses (hs : s.Agrees t) : s.responses = t.responses := hs.2.2.2

theorem State.Agrees.withDctx (hs : s.Agrees t) (hd : d.Agrees e) : (s.withDctx d).Agrees (t.withDctx e) :=
  ⟨hd, hs.hctx, hs.moves, hs.responses⟩

theorem State.Agrees.withHctx (hs : s.Agrees t) (hg : g.Agrees h) : (s.withHctx g).Agrees (t.withHctx h) :=
  ⟨hs.dctx, hg, hs.moves, hs.responses⟩

theorem State.Agrees.withMoves (hs : s.Agrees t) (m : List HostMove) : (s.withMoves m).Agrees (t.withMoves m) :=
  ⟨hs.dctx, hs.hctx, rfl, hs.responses⟩

theorem State.Agrees.deliver (hs : s.Agrees t) (r : Response) : (s.deliver r).Agrees (t.deliver r) :=
  ⟨hs.dctx, hs.hctx, hs.moves, congrArg (· ++ [r]) hs.responses⟩

/-- The counters of free values are not compared. -/
theorem State.Agrees.drawFree (hs : s.Agrees t) : s.drawFree.Agrees t.drawFree := hs

/-! ### Outcomes that agree -/

/-- Two outcomes that both go on, to machines that agree. -/
def GoOnAgreeing (r q : Result) : Prop := ∃ s t : State, r = .next s ∧ q = .next t ∧ s.Agrees t

theorem State.Agrees.next (hs : s.Agrees t) : GoOnAgreeing (.next s) (.next t) := ⟨s, t, rfl, rfl, hs⟩

theorem State.Agrees.complete (hs : s.Agrees t) (out : List Byte) :
    GoOnAgreeing (complete out s) (complete out t) := (hs.deliver _).next

theorem State.Agrees.reject (hs : s.Agrees t) (st : Status) : GoOnAgreeing (reject st s) (reject st t) :=
  (hs.deliver _).next

/-- The same check is passed by both machines or by neither, and a rejection keeps the agreement. -/
theorem State.Agrees.checked (hs : s.Agrees t) {check check' : Option Status} {run run' : Result}
    (same : check = check') (runs : check = none → GoOnAgreeing run run') :
    GoOnAgreeing (checked check s run) (checked check' t run') := by
  subst same
  cases check with
  | none => exact runs rfl
  | some st => exact hs.reject st

/-! ### Commands and steps -/

theorem State.Agrees.execAbsorb (hs : s.Agrees t) (b : List Byte) :
    GoOnAgreeing (execAbsorb b s) (execAbsorb b t) := by
  refine hs.checked (congrArg digestCheck hs.dctx.phase_eq) fun passed => ?_
  rw [hs.dctx.ctx_eq (digestCheck_eq_none.mp passed)]
  exact (hs.withDctx (.refl _)).complete []

/-- The digest is that of the specified context, and the two free values left behind are not compared. -/
theorem State.Agrees.execFinalize (hs : s.Agrees t) : GoOnAgreeing (execFinalize s) (execFinalize t) := by
  refine hs.checked (congrArg digestCheck hs.dctx.phase_eq) fun passed => ?_
  rw [hs.dctx.ctx_eq (digestCheck_eq_none.mp passed)]
  exact (hs.withDctx (Dctx.agrees_of_idle _ _)).drawFree.complete _

theorem State.Agrees.execHmacUpdate (hs : s.Agrees t) (b : List Byte) :
    GoOnAgreeing (execHmacUpdate b s) (execHmacUpdate b t) := by
  refine hs.checked (congrArg macCheck hs.hctx.phase_eq) fun passed => ?_
  rw [hs.hctx.eq_of_active (macCheck_eq_none.mp passed)]
  exact (hs.withHctx (.refl _)).complete []

/-- The MAC is that of the specified context, and the two free inner contexts left behind are not compared. -/
theorem State.Agrees.execHmacFinish (hs : s.Agrees t) : GoOnAgreeing (execHmacFinish s) (execHmacFinish t) := by
  refine hs.checked (congrArg macCheck hs.hctx.phase_eq) fun passed => ?_
  rw [hs.hctx.eq_of_active (macCheck_eq_none.mp passed)]
  exact (hs.withHctx (Hctx.agrees_of_finished ..)).drawFree.complete _

/-- The inner context is made anew from the pads, so what it held before is not seen. -/
theorem State.Agrees.execHmacReset (hs : s.Agrees t) : GoOnAgreeing (execHmacReset s) (execHmacReset t) := by
  refine hs.checked (congrArg keyCheck hs.hctx.phase_eq) fun passed => ?_
  exact (hs.withHctx (hs.hctx.restart (keyCheck_eq_none.mp passed))).complete []

/-- Every command keeps the agreement. -/
theorem State.Agrees.exec (hs : s.Agrees t) (i : Instr) : GoOnAgreeing (exec i s) (exec i t) := by
  cases i with
  | init v => exact (hs.withDctx (.refl _)).complete []
  | absorb b => exact hs.execAbsorb b
  | finalize => exact hs.execFinalize
  | hash v b => exact hs.complete _
  | hmacInit v a => exact (hs.withHctx (.refl _)).complete []
  | hmacUpdate b => exact hs.execHmacUpdate b
  | hmacFinish => exact hs.execHmacFinish
  | hmacReset => exact hs.execHmacReset
  | hmac v a b => exact hs.complete _
  | deriveKey a b iter klen => exact hs.checked rfl fun _ => hs.complete _

theorem State.Agrees.runRequest (hs : s.Agrees t) (r : Request) : GoOnAgreeing (runRequest r s) (runRequest r t) := by
  cases hdecode : decode r with
  | ok i =>
    rw [runRequest_of_decode hdecode, runRequest_of_decode hdecode]
    exact hs.exec i
  | error e =>
    rw [runRequest_of_illegal hdecode, runRequest_of_illegal hdecode]
    exact hs.reject .errIllegalCmd

/-- A reset by the host leaves the two machines with the same contexts. -/
theorem State.Agrees.hostReset (hs : s.Agrees t) : GoOnAgreeing (hostReset s) (hostReset t) :=
  ((hs.withDctx (.refl _)).withHctx (.refl _)).next

/-- The two machines make the same move, or wait together. -/
theorem State.Agrees.takeMove (hs : s.Agrees t) : GoOnAgreeing (takeMove s) (takeMove t) := by
  cases hmoves : s.moves with
  | nil =>
    rw [takeMove_of_no_moves hmoves, takeMove_of_no_moves (hs.moves ▸ hmoves)]
    exact hs.next
  | cons move rest =>
    cases move with
    | command r =>
      rw [takeMove_of_command hmoves, takeMove_of_command (hs.moves ▸ hmoves)]
      exact (hs.withMoves rest).runRequest r
    | reset =>
      rw [takeMove_of_reset hmoves, takeMove_of_reset (hs.moves ▸ hmoves)]
      exact (hs.withMoves rest).hostReset

end

/-- Settles O54: the agreement is kept by whatever move a step takes, command by command. -/
theorem unspecifiedFieldsAreNeverSeen : Obligations.UnspecifiedFieldsAreNeverSeen := fun _ _ hs => hs.takeMove

end Sys2Proof.Machine
end

section
/-! SUPPORT. Absorbing in pieces (40_digest.md R104, R105), and the lengths of digests and key pads (R107, 41_hmac.md
R131). -/

namespace Sys2Proof.Machine

/-- Two absorbs are one absorb of the concatenation (R105). -/
@[simp] theorem ctxAbsorb_ctxAbsorb (c : DigestCtx) (x y : List Byte) :
    ctxAbsorb (ctxAbsorb c x) y = ctxAbsorb c (x ++ y) := by
  simp only [ctxAbsorb, DigestCtx.mk.injEq, true_and, ← List.append_assoc]
  refine ⟨?_, ?_, (afterBlocks_append _ _).symm⟩
  · rw [wholeBlocks_append (c.buffer ++ x), List.foldl_append]
  · rw [List.length_append, BitVec.ofNat_add, BitVec.add_assoc]

/-- Absorbing nothing leaves a context within R20's bound as it is (R111). -/
theorem ctxAbsorb_nil {c : DigestCtx} (bounded : c.Bounded) : ctxAbsorb c [] = c := by
  simp [ctxAbsorb, wholeBlocks_of_short bounded, afterBlocks_of_short bounded]

theorem ctxInit_bounded (v : Variant) : (ctxInit v).Bounded := by simp [DigestCtx.Bounded]

/-- A digest is `DSIZE` bytes (R107). -/
@[simp] theorem ctxFinalize_length (c : DigestCtx) : (ctxFinalize c).length = dsize c.variant := by
  simp [ctxFinalize, dsize_le]

@[simp] theorem hashFn_length (m : List Byte) (v : Variant) : (hashFn m v).length = dsize v := by simp [hashFn]

/-- A key is one block long where the pads use it (R131). -/
@[simp] theorem blockKey_length (key : List Byte) (v : Variant) : (blockKey key v).length = 64 := by
  have hv := dsize_le v
  unfold blockKey
  split <;> simp <;> omega

@[simp] theorem keyIpad_length (key : List Byte) (v : Variant) : (keyIpad key v).length = 64 := by simp [keyIpad]

@[simp] theorem keyOpad_length (key : List Byte) (v : Variant) : (keyOpad key v).length = 64 := by simp [keyOpad]

end Sys2Proof.Machine
end

section
/-! SUPPORT. What one step can do to the machine, said once (00_scope.md R6, 70_reset_and_hazards.md R190, R191). -/

namespace Sys2Proof.Machine

/-- The ways a step can have changed the machine: the engine waited, or it made the host's next move, which is a
command, a byte that encodes none, or a reset. -/
inductive StepEffect : State → State → Prop where
  | wait {s : State} : s.moves = [] → StepEffect s s
  | run {s t : State} {r : Request} {rest : List HostMove} {i : Instr} : s.moves = .command r :: rest →
      decode r = .ok i → Effect i (s.withMoves rest) t → StepEffect s t
  | illegal {s : State} {r : Request} {rest : List HostMove} {e : Illegal} : s.moves = .command r :: rest →
      decode r = .error e → StepEffect s ((s.withMoves rest).deliver ⟨.errIllegalCmd, []⟩)
  | reset {s : State} {rest : List HostMove} : s.moves = .reset :: rest →
      StepEffect s (((s.withMoves rest).withDctx Dctx.atReset).withHctx Hctx.atReset)

/-- Every step that goes on has one of the effects. -/
theorem stepEffect_of_step {s t : State} (h : step s = .next t) : StepEffect s t := by
  unfold step at h
  cases hmoves : s.moves with
  | nil =>
    rw [takeMove_of_no_moves hmoves] at h
    cases h
    exact .wait hmoves
  | cons move rest =>
    cases move with
    | reset =>
      rw [takeMove_of_reset hmoves] at h
      cases h
      exact .reset hmoves
    | command r =>
      rw [takeMove_of_command hmoves] at h
      cases hdecode : decode r with
      | ok i =>
        rw [runRequest_of_decode hdecode] at h
        exact .run hmoves hdecode (effect_of_exec h)
      | error e =>
        rw [runRequest_of_illegal hdecode] at h
        cases h
        exact .illegal hmoves hdecode

end Sys2Proof.Machine
end

section
/-! SUPPORT. The invariant of a sound machine (10_state.md R20, R21, R25, 20_memory.md R51, 41_hmac.md R131): it holds
after reset, and every step keeps it. Each case names the fields that are written; the others are as they were. -/

namespace Sys2Proof.Machine

variable {s t : State}

/-- No context is in use after reset, and log entry 4's values are within the bounds. -/
theorem State.reset_inv : State.reset.Inv where
  digestBounded := Nat.zero_lt_succ 63
  innerBounded := Nat.zero_lt_succ 63
  ipadLength := List.length_replicate
  opadLength := List.length_replicate
  digestCounted := nofun
  innerCounted := nofun
  sameVariant := nofun
  onePadKey inUse := absurd rfl inUse
  movesWf := nofun

/-- Settles O52: no context is in use. -/
theorem invariantAtReset : Obligations.InvariantAtReset := State.reset_inv

/-- Making a move leaves the moves behind it. -/
theorem State.Inv.withMoves {m : HostMove} {rest : List HostMove} (hs : s.Inv) (hmoves : s.moves = m :: rest) :
    (s.withMoves rest).Inv :=
  { hs with movesWf := fun n hn => hs.movesWf n (hmoves ▸ List.mem_cons_of_mem m hn) }

theorem State.Inv.deliver (hs : s.Inv) (r : Response) : (s.deliver r).Inv := { hs with }

/-- Both contexts at their reset values, whatever they held. -/
theorem State.Inv.hostReset (hs : s.Inv) : ((s.withDctx Dctx.atReset).withHctx Hctx.atReset).Inv :=
  { State.reset_inv with movesWf := hs.movesWf }

theorem hmacStart_counted (ipad : List Byte) (v : Variant) : (hmacStart ipad v).Counted :=
  ctxAbsorb_counted ipad (ctxInit_counted v)

/-- Every command keeps the invariant. -/
theorem State.Inv.effect {i : Instr} (hs : s.Inv) (he : Effect i s t) : t.Inv := by
  cases he with
  | respond _ _ r => exact hs.deliver r
  | init v =>
    exact { hs with
      digestBounded := ctxInit_bounded v
      digestCounted := fun _ => ctxInit_counted v }
  | absorb b _ active =>
    exact { hs with
      digestBounded := ctxAbsorb_bounded s.dctx.ctx b
      digestCounted := fun _ => ctxAbsorb_counted b (hs.digestCounted active) }
  | finalize =>
    exact { hs with
      digestBounded := freeDigestCtx_bounded s.freeCount
      digestCounted := nofun }
  | hmacInit v a =>
    exact { hs with
      innerBounded := ctxAbsorb_bounded (ctxInit v) (keyIpad a v)
      ipadLength := keyIpad_length a v
      opadLength := keyOpad_length a v
      innerCounted := fun _ => hmacStart_counted (keyIpad a v) v
      sameVariant := fun _ => rfl
      onePadKey := fun _ => ⟨blockKey a v, rfl, rfl⟩ }
  | hmacUpdate b _ active =>
    exact { hs with
      innerBounded := ctxAbsorb_bounded s.hctx.inner b
      innerCounted := fun _ => ctxAbsorb_counted b (hs.innerCounted active)
      sameVariant := fun _ => hs.sameVariant active }
  | hmacFinish _ active =>
    exact { hs with
      innerBounded := freeDigestCtx_bounded s.freeCount
      innerCounted := nofun
      sameVariant := nofun
      onePadKey := fun _ => hs.onePadKey (by simp [active]) }
  | hmacReset _ keyed =>
    exact { hs with
      innerBounded := ctxAbsorb_bounded (ctxInit s.hctx.variant) s.hctx.ipad
      innerCounted := fun _ => hmacStart_counted s.hctx.ipad s.hctx.variant
      sameVariant := fun _ => rfl
      onePadKey := fun _ => hs.onePadKey keyed }

theorem State.Inv.stepEffect (hs : s.Inv) (he : StepEffect s t) : t.Inv := by
  cases he with
  | wait => exact hs
  | run hmoves _ he => exact (hs.withMoves hmoves).effect he
  | illegal hmoves => exact (hs.withMoves hmoves).deliver _
  | reset hmoves => exact (hs.withMoves hmoves).hostReset

/-- Settles O53: by the effects of a step, and of the command that it runs. -/
theorem everyStepKeepsInvariant : Obligations.EveryStepKeepsInvariant :=
  fun _ _ hs h => hs.stepEffect (stepEffect_of_step h)

end Sys2Proof.Machine
end

section
/-! SUPPORT. Contexts in use hold messages (10_state.md R21, R25, 20_memory.md R65, 41_hmac.md R131, R132): so it is
after reset, and every step keeps it so. -/

namespace Sys2Proof.Machine

variable {s t : State}

/-- No context is in use after reset. -/
theorem State.reset_streams : State.reset.Streams where
  digest := nofun
  pads inUse := absurd rfl inUse
  inner := nofun

/-- Settles O60: no context is in use. -/
theorem streamsAtReset : Obligations.StreamsAtReset := State.reset_streams

theorem State.Streams.withMoves (hs : s.Streams) (m : List HostMove) : (s.withMoves m).Streams := { hs with }

theorem State.Streams.deliver (hs : s.Streams) (r : Response) : (s.deliver r).Streams := { hs with }

/-- A fresh context has absorbed the empty message. -/
theorem ctxInit_eq_ctxAbsorb_nil (v : Variant) : ctxInit v = ctxAbsorb (ctxInit v) [] :=
  (ctxAbsorb_nil (ctxInit_bounded v)).symm

/-- An inner context that has absorbed `ipad` has absorbed the empty message after it. -/
theorem hmacStart_eq_ctxAbsorb_nil (ipad : List Byte) (v : Variant) :
    hmacStart ipad v = ctxAbsorb (hmacStart ipad v) [] :=
  (ctxAbsorb_nil (ctxAbsorb_bounded (ctxInit v) ipad)).symm

/-- Every command keeps the contexts in use ones that hold messages: absorbing adds to the message (R105). -/
theorem State.Streams.effect {i : Instr} (hs : s.Streams) (he : Effect i s t) : t.Streams := by
  cases he with
  | respond _ _ r => exact hs.deliver r
  | init v => exact { hs with digest := fun _ => ⟨v, [], ctxInit_eq_ctxAbsorb_nil v⟩ }
  | absorb b _ active =>
    obtain ⟨v, m, hm⟩ := hs.digest active
    exact { hs with digest := fun _ => ⟨v, m ++ b, by simp [hm]⟩ }
  | finalize => exact { hs with digest := nofun }
  | hmacInit v a =>
    exact { hs with
      pads := fun _ => ⟨a, rfl, rfl⟩
      inner := fun _ => ⟨[], hmacStart_eq_ctxAbsorb_nil (keyIpad a v) v⟩ }
  | hmacUpdate b _ active =>
    obtain ⟨m, hm⟩ := hs.inner active
    exact { hs with inner := fun _ => ⟨m ++ b, by simp [hm]⟩ }
  | hmacFinish _ active =>
    exact { hs with
      pads := fun _ => hs.pads (by simp [active])
      inner := nofun }
  | hmacReset _ keyed =>
    exact { hs with
      pads := fun _ => hs.pads keyed
      inner := fun _ => ⟨[], hmacStart_eq_ctxAbsorb_nil s.hctx.ipad s.hctx.variant⟩ }

theorem State.Streams.stepEffect (hs : s.Streams) (he : StepEffect s t) : t.Streams := by
  cases he with
  | wait => exact hs
  | run _ _ he => exact (hs.withMoves _).effect he
  | illegal => exact (hs.withMoves _).deliver _
  | reset => exact { State.reset_streams with }

/-- Settles O59: by the effects of a step, and of the command that it runs. -/
theorem everyStepKeepsStreams : Obligations.EveryStepKeepsStreams :=
  fun _ _ hs h => hs.stepEffect (stepEffect_of_step h)

end Sys2Proof.Machine
end

section
/-! SUPPORT. The phases and the statuses, command by command (10_state.md R24, R28, R36). -/

namespace Sys2Proof.Machine

open Sys2Proof.Claims

/-- Settles O8: the reset values. -/
theorem resetStateIsIdle : Obligations.ResetStateIsIdle := ⟨rfl, rfl⟩

/-- A command's outcome on a state is the one that the tables of R24 and R28 list: one response, the phase and the
status of a table that lists the command, and the context of one that does not as it was. -/
def FollowsTables (i : Instr) (s : State) (result : Result) : Prop :=
  ∃ t r, result = .next t ∧ t.responses = s.responses ++ [r] ∧
    (∀ p st, digestTable i s.dctx.phase = some (p, st) → t.dctx.phase = p ∧ r.status = st) ∧
    (digestTable i s.dctx.phase = none → t.dctx = s.dctx) ∧
    (∀ p st, macTable i s.hctx.phase = some (p, st) → t.hctx.phase = p ∧ r.status = st) ∧
    (macTable i s.hctx.phase = none → t.hctx = s.hctx)

section
variable {i : Instr} {s t : State} {r : Response}

/-- A command that the table of R24 alone lists. -/
theorem FollowsTables.of_digestTable (hr : t.responses = s.responses ++ [r])
    (hd : digestTable i s.dctx.phase = some (t.dctx.phase, r.status)) (hm : macTable i s.hctx.phase = none)
    (hh : t.hctx = s.hctx) : FollowsTables i s (.next t) :=
  ⟨t, r, rfl, hr, by simp [hd], by simp [hd], by simp [hm], fun _ => hh⟩

/-- A command that the table of R28 alone lists. -/
theorem FollowsTables.of_macTable (hr : t.responses = s.responses ++ [r])
    (hm : macTable i s.hctx.phase = some (t.hctx.phase, r.status)) (hd : digestTable i s.dctx.phase = none)
    (hh : t.dctx = s.dctx) : FollowsTables i s (.next t) :=
  ⟨t, r, rfl, hr, by simp [hd], fun _ => hh, by simp [hm], by simp [hm]⟩

/-- A command that neither table lists only responds. -/
theorem FollowsTables.of_neither (hd : digestTable i s.dctx.phase = none) (hm : macTable i s.hctx.phase = none)
    (r : Response) : FollowsTables i s (.next (s.deliver r)) :=
  ⟨_, r, rfl, rfl, by simp [hd], fun _ => rfl, by simp [hm], fun _ => rfl⟩

end

/-- Every command on every state, phase by phase of the context it uses. -/
theorem exec_followsTables (i : Instr) (s : State) : FollowsTables i s (exec i s) := by
  obtain ⟨⟨digestPhase, ctx⟩, ⟨macPhase, v, ipad, opad, inner⟩, n, moves, responses⟩ := s
  cases i with
  | init v => cases digestPhase <;> exact .of_digestTable rfl rfl rfl rfl
  | absorb b => cases digestPhase <;> exact .of_digestTable rfl rfl rfl rfl
  | finalize => cases digestPhase <;> exact .of_digestTable rfl rfl rfl rfl
  | hmacInit v a => exact .of_macTable rfl rfl rfl rfl
  | hmacUpdate b => cases macPhase <;> exact .of_macTable rfl rfl rfl rfl
  | hmacFinish => cases macPhase <;> exact .of_macTable rfl rfl rfl rfl
  | hmacReset => cases macPhase <;> exact .of_macTable rfl rfl rfl rfl
  | hash v b => exact .of_neither rfl rfl _
  | hmac v a b => exact .of_neither rfl rfl _
  | deriveKey a b iter klen =>
    rw [exec, execDeriveKey]
    cases deriveCheck iter klen <;> exact .of_neither rfl rfl _

/-- Settles O46: each command's outcome is its row of the table that lists it. -/
theorem phaseTransitions : Obligations.PhaseTransitions := exec_followsTables

end Sys2Proof.Machine
end

section
/-! SUPPORT. What a command does not touch: the context it does not use (10_state.md R26), the key (R42), and, for a
one-shot command, both contexts (R35). -/

namespace Sys2Proof.Machine

open Sys2Proof.Claims

variable {i : Instr} {s t : State}

/-- Where neither the check nor what is written depends on a part of the state, another value of that part goes through
the command as it is. -/
theorem checked_complete_comm {check : Option Status} {out : List Byte} {w : State} (put : State → State)
    (hput : ∀ (r : Response) (u : State), put (u.deliver r) = (put u).deliver r)
    (h : checked check s (complete out w) = .next t) :
    checked check (put s) (complete out (put w)) = .next (put t) := by
  rcases checked_eq_next.mp h with ⟨rfl, hw⟩ | ⟨st, rfl, rfl⟩
  · rw [← complete_eq_next.mp hw, hput]
    rfl
  · rw [hput]
    rfl

theorem checked_complete_withDctx {check : Option Status} {out : List Byte} {w : State} (d : Dctx)
    (h : checked check s (complete out w) = .next t) :
    checked check (s.withDctx d) (complete out (w.withDctx d)) = .next (t.withDctx d) :=
  checked_complete_comm (State.withDctx d) (fun _ _ => rfl) h

theorem checked_complete_withHctx {check : Option Status} {out : List Byte} {w : State} (g : Hctx)
    (h : checked check s (complete out w) = .next t) :
    checked check (s.withHctx g) (complete out (w.withHctx g)) = .next (t.withHctx g) :=
  checked_complete_comm (State.withHctx g) (fun _ _ => rfl) h

/-- A command that does not use `DCTX` does the same to the rest whatever `DCTX` holds (R26). -/
theorem exec_withDctx (unused : usesDctx i = false) (h : exec i s = .next t) (d : Dctx) :
    exec i (s.withDctx d) = .next (t.withDctx d) := by
  cases i with
  | init v => cases unused
  | absorb b => cases unused
  | finalize => cases unused
  | hash v b => exact checked_complete_withDctx (s := s) (check := none) d h
  | hmacInit v a => exact checked_complete_withDctx (s := s) (check := none) d h
  | hmacUpdate b => exact checked_complete_withDctx d h
  | hmacFinish => exact checked_complete_withDctx d h
  | hmacReset => exact checked_complete_withDctx d h
  | hmac v a b => exact checked_complete_withDctx (s := s) (check := none) d h
  | deriveKey a b iter klen => exact checked_complete_withDctx d h

/-- A command that does not use `HCTX` does the same to the rest whatever `HCTX` holds (R26). -/
theorem exec_withHctx (unused : usesHctx i = false) (h : exec i s = .next t) (g : Hctx) :
    exec i (s.withHctx g) = .next (t.withHctx g) := by
  cases i with
  | init v => exact checked_complete_withHctx (s := s) (check := none) g h
  | absorb b => exact checked_complete_withHctx g h
  | finalize => exact checked_complete_withHctx g h
  | hash v b => exact checked_complete_withHctx (s := s) (check := none) g h
  | hmacInit v a => cases unused
  | hmacUpdate b => cases unused
  | hmacFinish => cases unused
  | hmacReset => cases unused
  | hmac v a b => exact checked_complete_withHctx (s := s) (check := none) g h
  | deriveKey a b iter klen => exact checked_complete_withHctx g h

/-- What goes through a command as it is, is not written: the case of the value that is there. -/
theorem exec_dctx_of_unused (unused : usesDctx i = false) (h : exec i s = .next t) : t.dctx = s.dctx := by
  have same : Host.Outcome.next t = .next (t.withDctx s.dctx) := h.symm.trans (exec_withDctx unused h s.dctx)
  injection same with same
  rw [same, State.withDctx_dctx]

theorem exec_hctx_of_unused (unused : usesHctx i = false) (h : exec i s = .next t) : t.hctx = s.hctx := by
  have same : Host.Outcome.next t = .next (t.withHctx s.hctx) := h.symm.trans (exec_withHctx unused h s.hctx)
  injection same with same
  rw [same, State.withHctx_hctx]

/-- The key is written by no effect but that of `HMAC_INIT` (R42). -/
theorem Effect.key_eq (he : Effect i s t) (noKey : LoadsNoKey i) :
    t.hctx.variant = s.hctx.variant ∧ t.hctx.ipad = s.hctx.ipad ∧ t.hctx.opad = s.hctx.opad := by
  cases he with
  | hmacInit v a => exact absurd rfl (noKey v a)
  | respond | init | absorb | finalize | hmacUpdate | hmacFinish | hmacReset => exact ⟨rfl, rfl, rfl⟩

/-- A one-shot command only responds, with a response that its operands decide (R35). -/
theorem exec_oneShot (noDctx : usesDctx i = false) (noHctx : usesHctx i = false) :
    ∃ r : Response, ∀ s : State, exec i s = .next (s.deliver r) := by
  cases i with
  | hash v b => exact ⟨⟨.ok, hashFn b v⟩, fun _ => rfl⟩
  | hmac v a b => exact ⟨⟨.ok, hmacFn a b v⟩, fun _ => rfl⟩
  | deriveKey a b iter klen =>
    simp only [exec, execDeriveKey]
    cases deriveCheck iter klen with
    | none => exact ⟨⟨.ok, pbkdf2 a b iter.toNat klen.toNat⟩, fun _ => rfl⟩
    | some st => exact ⟨⟨st, []⟩, fun _ => rfl⟩
  | init | absorb | finalize => cases noDctx
  | hmacInit | hmacUpdate | hmacFinish | hmacReset => cases noHctx

/-- Settles O47: another value of the unused context goes through the command as it is. -/
theorem contextsAreSeparate : Obligations.ContextsAreSeparate := fun _ _ _ h =>
  ⟨fun unused => ⟨exec_dctx_of_unused unused h, exec_withDctx unused h⟩,
    fun unused => ⟨exec_hctx_of_unused unused h, exec_withHctx unused h⟩⟩

/-- Settles O48: by the effects of a command. -/
theorem onlyHmacInitWritesPads : Obligations.OnlyHmacInitWritesPads := fun _ _ _ noKey h =>
  (effect_of_exec h).key_eq noKey

/-- Settles O49: `HASH`, `HMAC` and `DERIVE_KEY`, the last with its key or its rejection. -/
theorem oneShotCommandsArePure : Obligations.OneShotCommandsArePure := fun _ noDctx noHctx =>
  exec_oneShot noDctx noHctx

end Sys2Proof.Machine
end

section
/-! SUPPORT. Every command in one form: the check that it has to pass, the output it completes with and the state it
writes (60_exceptions.md R176, 20_memory.md R53). That the command goes on, and with which response, follows at once. -/

namespace Sys2Proof.Machine

/-- A command on a state: its check, and what it completes with where the check passes. -/
structure Plan where
  check   : Option Status
  out     : List Byte
  written : State

/-- The plan of each command (40_digest.md R110 to R113, 41_hmac.md R135 to R139, 42_pbkdf2.md R154). -/
def plan (i : Instr) (s : State) : Plan :=
  match i with
  | .init v => ⟨none, [], s.withDctx ⟨.active, ctxInit v⟩⟩
  | .absorb b => ⟨digestCheck s.dctx.phase, [], s.withDctx ⟨.active, ctxAbsorb s.dctx.ctx b⟩⟩
  | .finalize =>
    ⟨digestCheck s.dctx.phase, ctxFinalize s.dctx.ctx,
      (s.withDctx ⟨.idle, freeDigestCtx s.freeCount⟩).drawFree⟩
  | .hash v b => ⟨none, hashFn b v, s⟩
  | .hmacInit v a =>
    ⟨none, [], s.withHctx ⟨.active, v, keyIpad a v, keyOpad a v, hmacStart (keyIpad a v) v⟩⟩
  | .hmacUpdate b =>
    ⟨macCheck s.hctx.phase, [], s.withHctx { s.hctx with inner := ctxAbsorb s.hctx.inner b }⟩
  | .hmacFinish =>
    ⟨macCheck s.hctx.phase, hmacFinishFn s.hctx.inner s.hctx.opad s.hctx.variant,
      (s.withHctx { s.hctx with phase := .finished, inner := freeDigestCtx s.freeCount }).drawFree⟩
  | .hmacReset =>
    ⟨keyCheck s.hctx.phase, [],
      s.withHctx { s.hctx with phase := .active, inner := hmacStart s.hctx.ipad s.hctx.variant }⟩
  | .hmac v a b => ⟨none, hmacFn a b v, s⟩
  | .deriveKey a b iter klen => ⟨deriveCheck iter klen, pbkdf2 a b iter.toNat klen.toNat, s⟩

/-- The response of a planned command: the rejection, or the output. -/
def Plan.response (p : Plan) : Response :=
  match p.check with
  | some st => ⟨st, []⟩
  | none => ⟨.ok, p.out⟩

variable {s t : State} {i : Instr}

/-- A command is its plan, checked. -/
theorem exec_eq_checked (i : Instr) (s : State) :
    exec i s = checked (plan i s).check s (complete (plan i s).out (plan i s).written) := by
  cases i <;> rfl

@[simp] theorem plan_written_responses (i : Instr) (s : State) : (plan i s).written.responses = s.responses := by
  cases i <;> rfl

@[simp] theorem plan_written_moves (i : Instr) (s : State) : (plan i s).written.moves = s.moves := by
  cases i <;> rfl

theorem deriveCheck_ne_ok (iter : BitVec 32) (klen : Quad) : deriveCheck iter klen ≠ some .ok := by
  rcases deriveCheck_cases iter klen with ⟨_, h⟩ | ⟨_, _, h⟩ | ⟨_, _, h⟩ <;> simp [h]

/-- No rejection has the status `OK` (60_exceptions.md R171). -/
theorem plan_check_ne_ok (i : Instr) (s : State) : (plan i s).check ≠ some .ok := by
  cases i with
  | init | hash | hmacInit | hmac => simp [plan]
  | absorb | finalize => simp [plan, digestCheck_eq_some]
  | hmacUpdate | hmacFinish => simp [plan, macCheck_eq_some]
  | hmacReset => simp [plan, keyCheck_eq_some]
  | deriveKey a b iter klen => exact deriveCheck_ne_ok iter klen

/-- Every command on every state goes on, with its one response delivered and the moves to come as they were. -/
theorem exec_answers (i : Instr) (s : State) :
    ∃ t, exec i s = .next t ∧ t.responses = s.responses ++ [(plan i s).response] ∧ t.moves = s.moves := by
  rw [exec_eq_checked, Plan.response]
  cases (plan i s).check with
  | none => exact ⟨_, rfl, by simp, by simp⟩
  | some st => exact ⟨_, rfl, rfl, rfl⟩

/-- No command reads or writes the moves to come. -/
theorem exec_withMoves (h : exec i s = .next t) (m : List HostMove) :
    exec i (s.withMoves m) = .next (t.withMoves m) := by
  rw [exec_eq_checked] at h
  have moved := checked_complete_comm (State.withMoves m) (fun _ _ => rfl) h
  cases i <;> exact moved

end Sys2Proof.Machine
end

section
/-! SUPPORT. The lengths of outputs (20_memory.md R53): a digest or a MAC has `DSIZE` bytes, a derived key `KLEN`
(42_pbkdf2.md R153). -/

namespace Sys2Proof.Machine

open Sys2Proof.Claims

/-- The numbers of R53 are those of R14. -/
theorem digestBytes_eq_dsize (v : Variant) : digestBytes v = dsize v := by cases v <;> rfl

@[simp] theorem hmacFinishFn_length (inner : DigestCtx) (opad : List Byte) (v : Variant) :
    (hmacFinishFn inner opad v).length = dsize v := by simp [hmacFinishFn]

@[simp] theorem hmacFn_length (key msg : List Byte) (v : Variant) : (hmacFn key msg v).length = dsize v :=
  hmacFinishFn_length ..

@[simp] theorem xorBytes_length (s t : List Byte) : (xorBytes s t).length = min s.length t.length :=
  List.length_zipWith

/-- The running xor keeps the length of one MAC (R152). -/
theorem pbkdfLoop_length (password : List Byte) (n : Nat) (u : List Byte) {t : List Byte} (ht : t.length = 32) :
    (pbkdfLoop password n u t).length = 32 := by
  induction n generalizing u t with
  | zero => exact ht
  | succ n ih => exact ih _ (by simp [ht, dsize])

/-- A block is 32 bytes (R152). -/
@[simp] theorem pbkdfBlock_length (password salt : List Byte) (c i : Nat) :
    (pbkdfBlock password salt c i).length = 32 :=
  pbkdfLoop_length _ _ _ (hmacFn_length ..)

/-- `ceil(L / 32)` blocks are enough for `L` bytes (R153). -/
@[simp] theorem pbkdf2_length (password salt : List Byte) (c len : Nat) :
    (pbkdf2 password salt c len).length = len := by
  simp [pbkdf2, List.length_flatMap]
  omega

/-- The output that a command completes with has the length of R53. -/
theorem plan_out_length (i : Instr) (s : State) : (plan i s).out.length = outLength s i := by
  cases i with
  | init | absorb | hmacInit | hmacUpdate | hmacReset => rfl
  | finalize | hash | hmacFinish | hmac => simp [plan, outLength, digestBytes_eq_dsize]
  | deriveKey => exact pbkdf2_length ..

/-- A response has the output its status allows: R53's on `OK`, and none otherwise. -/
theorem plan_response_out_length (i : Instr) (s : State) :
    (plan i s).response.out.length = if (plan i s).response.status = .ok then outLength s i else 0 := by
  have hok := plan_check_ne_ok i s
  rw [Plan.response]
  cases hc : (plan i s).check with
  | none => simp [plan_out_length]
  | some st =>
    have rejected : st ≠ .ok := fun h => hok (h ▸ hc)
    simp [rejected]

/-- Settles O50: the length is that of the planned response. -/
theorem outputLengths : Obligations.OutputLengths := by
  refine ⟨rfl, rfl, fun i s => ?_⟩
  obtain ⟨t, ht, hresp, -⟩ := exec_answers i s
  exact ⟨t, _, ht, hresp, plan_response_out_length i s⟩

end Sys2Proof.Machine
end

section
/-! SUPPORT. Requests one after another (20_memory.md R60): each step makes the effect of one request, which neither
reads nor writes the moves still to come. -/

namespace Sys2Proof.Machine

open Sys2Proof.Claims

variable {s t : State} {r : Request}

/-- A command word holds the fields it was made of (30_encoding.md R70). -/
theorem cmd8_fields (op : BitVec 4) (v : Bool) :
    rsvField (cmd8 op v) = 0 ∧ opField (cmd8 op v) = op ∧ vField (cmd8 op v) = v := by
  revert op v
  decide

/-- A command word is decoded by its operation code and its variant bit (R70). -/
theorem decode_cmd8 (op : BitVec 4) (v : Bool) (a b : List Byte) (iter : BitVec 32) (klen : Quad) :
    decode ⟨cmd8 op v, a, b, iter, klen⟩ = decodeOp op v ⟨cmd8 op v, a, b, iter, klen⟩ := by
  obtain ⟨rsv_eq, op_eq, v_eq⟩ := cmd8_fields op v
  rw [decode, if_pos rsv_eq, op_eq, v_eq]

@[simp] theorem variantOf_variantBit (v : Variant) : variantOf (variantBit v) = v := by cases v <;> rfl

/-- Every command is read back from its encoding (30_encoding.md R72, R73). -/
@[simp] theorem decode_encode (i : Instr) : decode (encode i) = .ok i := by
  cases i <;> simp [encode, decode_cmd8, decodeOp, noVariant]

/-- A step takes the request that comes next, and makes its effect. -/
theorem step_of_command {rest : List HostMove} (h : s.moves = .command r :: rest) :
    step s = answered r (s.withMoves rest) := by
  rw [step, takeMove_of_command h]
  unfold runRequest answered
  cases decode r <;> rfl

theorem answered_of_decode {i : Instr} (h : decode r = .ok i) (s : State) : answered r s = exec i s := by
  simp [answered, h]

theorem answered_of_illegal {e : Illegal} (h : decode r = .error e) (s : State) :
    answered r s = .next (s.deliver ⟨.errIllegalCmd, []⟩) := by
  simp only [answered, h]
  rfl

/-- Every request goes on, with one response more and the moves to come as they were. -/
theorem answered_answers (r : Request) (s : State) :
    ∃ t resp, answered r s = .next t ∧ t.responses = s.responses ++ [resp] ∧ t.moves = s.moves := by
  cases h : decode r with
  | ok i =>
    obtain ⟨t, ht, hresp, hmoves⟩ := exec_answers i s
    exact ⟨t, _, (answered_of_decode h s).trans ht, hresp, hmoves⟩
  | error e => exact ⟨_, _, answered_of_illegal h s, rfl, rfl⟩

/-- No request reads or writes the moves to come. -/
theorem answered_withMoves (ht : answered r s = .next t) (m : List HostMove) :
    answered r (s.withMoves m) = .next (t.withMoves m) := by
  cases h : decode r with
  | ok i =>
    rw [answered_of_decode h] at ht ⊢
    exact exec_withMoves ht m
  | error e =>
    rw [answered_of_illegal h] at ht ⊢
    cases ht
    rfl

/-- Requests after a request run from where it went. -/
theorem answeredAll_cons_of_next {rs : List Request} (h : answered r s = .next t) :
    answeredAll (r :: rs) s = answeredAll rs t := by
  simp [answeredAll, h]

/-- Putting back the moves that are there changes nothing. -/
theorem State.withMoves_eq_self {m : List HostMove} (h : s.moves = m) : s.withMoves m = s := by
  subst h
  rfl

/-- A run of steps after a step that goes on. -/
theorem run_succ_of_step {k : Nat} (h : step s = .next t) : core.run (k + 1) s = core.run k t := by
  simp only [Host.Core.run, core, h]

/-- All requests go on, with one response each and the moves to come as they were. -/
theorem answeredAll_answers (rs : List Request) (s : State) :
    ∃ t out, answeredAll rs s = .next t ∧ t.moves = s.moves ∧ t.responses = s.responses ++ out ∧
      out.length = rs.length := by
  induction rs generalizing s with
  | nil => exact ⟨s, [], rfl, rfl, by simp, rfl⟩
  | cons r rs ih =>
    obtain ⟨u, resp, hu, hresp, hmoves⟩ := answered_answers r s
    obtain ⟨t, out, ht, hmoves', hout, hlen⟩ := ih u
    exact ⟨t, resp :: out, (answeredAll_cons_of_next hu).trans ht, hmoves'.trans hmoves, by simp [hout, hresp],
      by simp [hlen]⟩

/-- As many steps as there are requests make their effects in order, and leave the moves after them. -/
theorem run_eq_answeredAll (rs : List Request) {rest : List HostMove} (hmoves : s.moves = rs.map .command ++ rest) :
    core.run rs.length s = answeredAll rs (s.withMoves rest) := by
  induction rs generalizing s with
  | nil => exact congrArg Host.Outcome.next (State.withMoves_eq_self hmoves).symm
  | cons r rs ih =>
    obtain ⟨t, -, ht, -, tmoves⟩ := answered_answers r (s.withMoves rest)
    rw [List.map_cons, List.cons_append] at hmoves
    have step_eq : step s = .next (t.withMoves (rs.map .command ++ rest)) :=
      (step_of_command hmoves).trans (answered_withMoves ht _)
    have after_eq : (t.withMoves (rs.map .command ++ rest)).withMoves rest = t := State.withMoves_eq_self tmoves
    rw [List.length_cons, run_succ_of_step step_eq, ih rfl, after_eq, answeredAll_cons_of_next ht]

/-- Requests that encode commands have the effects of the commands. -/
theorem answeredAll_map_encode (is : List Instr) (s : State) : answeredAll (is.map encode) s = execAll is s := by
  induction is generalizing s with
  | nil => rfl
  | cons i is ih =>
    obtain ⟨t, ht, -⟩ := exec_answers i s
    rw [List.map_cons, execAll_cons_of_next ht, ← ih,
      answeredAll_cons_of_next ((answered_of_decode (decode_encode i) s).trans ht)]

/-- Settles O11: step by step, and encoding by encoding. -/
theorem commandsRunInOrder : Obligations.CommandsRunInOrder :=
  ⟨fun rs rest s hmoves => ⟨run_eq_answeredAll rs hmoves, answeredAll_answers rs (s.withMoves rest)⟩,
    answeredAll_map_encode⟩

end Sys2Proof.Machine
end

section
/-! SUPPORT. A digest stream (20_memory.md R65, 40_digest.md R113, 70_reset_and_hazards.md R196): what `DCTX` has
absorbed since `INIT`, through any commands that neither start nor end a stream. -/

namespace Sys2Proof.Machine

open Sys2Proof.Claims

/-- `DCTX` is in use, and has absorbed the message `m` since it was started. -/
def State.Digests (s : State) (v : Variant) (m : List Byte) : Prop :=
  s.dctx = ⟨.active, ctxAbsorb (ctxInit v) m⟩

variable {s t : State} {v : Variant} {m : List Byte} {i : Instr} {is : List Instr}

/-- `INIT` starts a stream with nothing absorbed, on every state (R110). -/
theorem exec_init_digests (v : Variant) (s : State) : ∃ t, exec (.init v) s = .next t ∧ t.Digests v [] :=
  ⟨_, rfl, congrArg (Dctx.mk .active) (ctxInit_eq_ctxAbsorb_nil v)⟩

/-- `ABSORB` adds its data to the message, and another command that keeps the stream adds nothing (R111, R26). -/
theorem State.Digests.of_exec (hs : s.Digests v m) (keeps : KeepsDigestStream i) (h : exec i s = .next t) :
    t.Digests v (m ++ absorbedBy i) := by
  have unused (hi : usesDctx i = false) : t.Digests v m := (exec_dctx_of_unused hi h).trans hs
  obtain ⟨noInit, noFinalize⟩ := keeps
  cases i with
  | init w => exact absurd rfl (noInit w)
  | finalize => exact absurd rfl noFinalize
  | absorb b =>
    simp only [exec, execAbsorb, show s.dctx = _ from hs, digestCheck, checked_none,
      ctxAbsorb_ctxAbsorb, complete_eq_next] at h
    exact h ▸ rfl
  | hash | hmacInit | hmacUpdate | hmacFinish | hmacReset | hmac | deriveKey =>
    simpa [absorbedBy] using unused rfl

/-- Commands that keep the stream add to the message what they were given to absorb, in order. -/
theorem State.Digests.of_execAll (hs : s.Digests v m) (keeps : ∀ i ∈ is, KeepsDigestStream i) :
    ∃ t, execAll is s = .next t ∧ t.Digests v (m ++ is.flatMap absorbedBy) := by
  induction is generalizing s m with
  | nil => exact ⟨s, rfl, by simpa using hs⟩
  | cons i is ih =>
    obtain ⟨keepsHead, keepsTail⟩ := List.forall_mem_cons.mp keeps
    obtain ⟨u, hu, -⟩ := exec_answers i s
    obtain ⟨t, ht, digests⟩ := ih (hs.of_exec keepsHead hu) keepsTail
    exact ⟨t, (execAll_cons_of_next hu).trans ht, by simpa using digests⟩

/-- `FINALIZE` ends a stream with the hash of the message (R109, R112). -/
theorem State.Digests.of_finalize (hs : s.Digests v m) :
    ∃ t, exec .finalize s = .next t ∧ t.responses = s.responses ++ [⟨.ok, hashFn m v⟩] := by
  simp only [exec, execFinalize, show s.dctx = _ from hs, digestCheck, checked_none]
  exact ⟨_, rfl, rfl⟩

/-- Commands after commands that go on run from where those went. -/
theorem execAll_append_of_next {js : List Instr} (h : execAll is s = .next t) :
    execAll (is ++ js) s = execAll js t := by
  induction is generalizing s with
  | nil => cases h; rfl
  | cons i is ih =>
    obtain ⟨u, hu, -⟩ := exec_answers i s
    rw [execAll_cons_of_next hu] at h
    exact (execAll_cons_of_next hu).trans (ih h)

/-- Settles O55: the stream from `INIT` to `FINALIZE`. -/
theorem streamedDigestEqualsHash : Obligations.StreamedDigestEqualsHash := by
  intro v is s keeps
  obtain ⟨s0, hinit, started⟩ := exec_init_digests v s
  obtain ⟨s1, hall, digests⟩ := started.of_execAll keeps
  obtain ⟨t, hfinal, hresp⟩ := digests.of_finalize
  refine ⟨t, ?_, by simp [hresp]⟩
  calc execAll (.init v :: is ++ [.finalize]) s
    _ = execAll (is ++ [.finalize]) s0 := execAll_cons_of_next hinit
    _ = execAll [.finalize] s1 := execAll_append_of_next hall
    _ = .next t := execAll_cons_of_next hfinal

end Sys2Proof.Machine
end

section
/-! SUPPORT. The decoder read backwards (30_encoding.md R70 to R76): a request that decodes has the command word and the
operands of the command's encoding, and whether it decodes is a matter of its command word. -/

namespace Sys2Proof.Machine

open Sys2Proof.Claims

variable {r q : Request} {i j : Instr} {op : BitVec 4} {v : Bool} {k : Nat}

/-! ### From a decoded request to the command's encoding -/

/-- A command word whose reserved bits are clear is made of its two other fields (R70). -/
theorem cmd8_opField_vField {c : Byte} (h : rsvField c = 0) : cmd8 (opField c) (vField c) = c := by
  revert c
  decide

@[simp] theorem variantBit_variantOf (v : Bool) : variantBit (variantOf v) = v := by cases v <;> rfl

@[simp] theorem noVariant_eq_ok : noVariant v i = .ok j ↔ v = false ∧ i = j := by cases v <;> simp [noVariant]

theorem eq_ofNat_of_toNat_eq (h : op.toNat = k) : op = BitVec.ofNat 4 k := by
  rw [← h, BitVec.ofNat_toNat, BitVec.setWidth_eq]

/-- What the opcode map makes of a command word has that word, and the operands it took, in its encoding (R72, R73). -/
theorem encode_eq_carried_of_decodeOp (hword : r.cmd = cmd8 op v) (h : decodeOp op v r = .ok i) :
    encode i = carried i r := by
  unfold decodeOp at h
  split at h
  case h_1 hop | h_4 hop | h_5 hop | h_9 hop =>
    cases h
    simp [encode, carried, hword, eq_ofNat_of_toNat_eq hop, takesA, takesB, takesNumbers]
  case h_2 hop | h_3 hop | h_6 hop | h_7 hop | h_8 hop | h_10 hop =>
    obtain ⟨rfl, rfl⟩ := noVariant_eq_ok.mp h
    simp [encode, carried, hword, eq_ofNat_of_toNat_eq hop, takesA, takesB, takesNumbers]
  case h_11 => cases h

/-- A request that decodes to a command is its encoding in everything that belongs to the command (R70, R72, R73). -/
theorem encode_eq_carried (h : decode r = .ok i) : encode i = carried i r := by
  unfold decode at h
  split at h
  · next hrsv => exact encode_eq_carried_of_decodeOp (cmd8_opField_vField hrsv).symm h
  · cases h

theorem encode_cmd_of_decode (h : decode r = .ok i) : (encode i).cmd = r.cmd := by
  rw [encode_eq_carried h, carried]

/-- Settles O1: the decoder read forwards and backwards. -/
theorem decodeEncodeAgree : Obligations.DecodeEncodeAgree :=
  ⟨decode_encode, fun _ _ => encode_eq_carried⟩

/-! ### What the command word alone decides -/

/-- The decoder's answer without the command: why the request is illegal, or that it is not. -/
def verdict (r : Request) : Except Illegal Unit := (decode r).map fun _ => ()

theorem verdict_eq_error {e : Illegal} : verdict r = .error e ↔ decode r = .error e := by
  cases h : decode r <;> simp [verdict, h, Except.map]

theorem verdict_eq_ok : verdict r = .ok () ↔ ∃ i, decode r = .ok i := by
  cases h : decode r <;> simp [verdict, h, Except.map]

/-- No row of the opcode map looks at the operands to accept or refuse a command word (R72). -/
theorem decodeOp_verdict (op : BitVec 4) (v : Bool) (r q : Request) :
    (decodeOp op v r).map (fun _ => ()) = (decodeOp op v q).map fun _ => () := by
  unfold decodeOp noVariant
  split <;> cases v <;> rfl

/-- The command word decides the verdict (R76). -/
theorem verdict_congr (h : r.cmd = q.cmd) : verdict r = verdict q := by
  unfold verdict decode
  rw [h]
  split
  · exact decodeOp_verdict ..
  · rfl

/-- Settles O3: the command word decides the verdict, and a command has the word it was decoded from. -/
theorem decodingReadsOnlyTheCommandWord : Obligations.DecodingReadsOnlyTheCommandWord := by
  intro r q hword
  refine ⟨fun e h => ?_, fun i h => ?_⟩
  · rw [← verdict_eq_error, ← verdict_congr hword]
    exact verdict_eq_error.mpr h
  · obtain ⟨j, hj⟩ := verdict_eq_ok.mp ((verdict_congr hword).symm.trans (verdict_eq_ok.mpr ⟨i, h⟩))
    refine ⟨j, hj, ?_⟩
    calc (encode j).cmd
      _ = q.cmd := encode_cmd_of_decode hj
      _ = r.cmd := hword.symm
      _ = (encode i).cmd := (encode_cmd_of_decode h).symm

/-! ### The opcode map -/

/-- Every request with a command word is decoded as the opcode map says of the word's fields. -/
theorem presents_cmd8 (op : BitVec 4) (v : Bool) {f : Request → Instr} (h : ∀ r, decodeOp op v r = .ok (f r)) :
    Presents (cmd8 op v) f := by
  rintro ⟨_, a, b, iter, klen⟩ rfl
  exact (decode_cmd8 op v a b iter klen).trans (h _)

/-- With nothing on the operand channels, 14 of the 256 command words decode (R72, R74). -/
theorem verdict_bare_word (c : Byte) : verdict ⟨c, [], [], 0, 0⟩ = .ok () ↔ c ∈ legalBytes := by
  revert c
  decide

/-- The 14 command words that decode, whatever stands on the operand channels (R74, R76). -/
theorem decodes_iff_legal (r : Request) : (∃ i, decode r = .ok i) ↔ r.cmd ∈ legalBytes := by
  have bare_word : verdict r = verdict ⟨r.cmd, [], [], 0, 0⟩ := verdict_congr rfl
  rw [← verdict_eq_ok, bare_word, verdict_bare_word]

/-- Settles O2: one row of the opcode map after another, and the list of the legal words. -/
theorem opcodeMap : Obligations.OpcodeMap :=
  ⟨presents_cmd8 0x1 false fun _ => rfl, presents_cmd8 0x1 true fun _ => rfl,
    presents_cmd8 0x2 false fun _ => rfl, presents_cmd8 0x3 false fun _ => rfl,
    presents_cmd8 0x4 false fun _ => rfl, presents_cmd8 0x4 true fun _ => rfl,
    presents_cmd8 0x5 false fun _ => rfl, presents_cmd8 0x5 true fun _ => rfl,
    presents_cmd8 0x6 false fun _ => rfl, presents_cmd8 0x7 false fun _ => rfl,
    presents_cmd8 0x8 false fun _ => rfl,
    presents_cmd8 0x9 false fun _ => rfl, presents_cmd8 0x9 true fun _ => rfl,
    presents_cmd8 0xA false fun _ => rfl, decodes_iff_legal⟩

/-- Settles O4: five rows of the opcode map, at the operands given. -/
theorem writtenOutWordsDecode : Obligations.WrittenOutWordsDecode := by
  obtain ⟨-, init224, absorb, -, -, -, hmacInit256, -, -, -, -, -, hmac224, deriveKey, -⟩ := opcodeMap
  exact ⟨init224 _ rfl, absorb _ rfl, hmacInit256 _ rfl, hmac224 _ rfl, deriveKey _ rfl⟩

end Sys2Proof.Machine
end

section
/-! SUPPORT. The word functions bit by bit (40_digest.md R91 to R96). -/

namespace Sys2Proof.Machine

/-- Bit `i` of `shr(x, n)` is the bit of `x` that stands `n` places higher; zeros enter at the top (R9). -/
@[simp] theorem shr_getLsbD (x : Word) (n i : Nat) : (shr x n).getLsbD i = x.getLsbD (i + n) := by
  rw [shr, BitVec.getLsbD_ushiftRight, Nat.add_comm]

/-- Bit `i` of `rotr(x, n)` is the bit of `x` that stands `n` places higher, counted around the word (R9). -/
theorem rotr_getLsbD (x : Word) {n i : Nat} (hn : n < 32) (hi : i < 32) :
    (rotr x n).getLsbD i = x.getLsbD ((i + n) % 32) := by
  rw [rotr, BitVec.getLsbD_or, shr_getLsbD, BitVec.getLsbD_shiftLeft]
  by_cases wraps : i + n < 32
  · have low : i < 32 - n := by omega
    rw [Nat.mod_eq_of_lt wraps]
    simp [low]
  · have high : ¬ i < 32 - n := by omega
    have around : (i + n) % 32 = i - (32 - n) := by omega
    rw [around, BitVec.getLsbD_of_ge x (i + n) (by omega)]
    simp [hi, high]

/-- Settles O18: each function is the exclusive or of rotations and shifts, whose bits are known. -/
theorem sigmaFunctionsBitwise : Obligations.SigmaFunctionsBitwise := by
  intro x i hi
  simp only [sigma0, sigma1, bigSigma0, bigSigma1, BitVec.getLsbD_xor, shr_getLsbD, rotr_getLsbD, hi,
    Nat.reduceLT, and_self]

/-- Each bit of `Ch` is chosen by the bit of `x` (R95). -/
theorem ch_getLsbD (x y z : Word) (i : Nat) :
    (ch x y z).getLsbD i = if x.getLsbD i then y.getLsbD i else z.getLsbD i := by
  rw [ch, BitVec.getLsbD_xor, BitVec.getLsbD_and, BitVec.getLsbD_xor]
  cases x.getLsbD i <;> simp [Bool.xor_left_comm]

/-- Each bit of `Maj` is the one that at least two of the three have (R96). -/
theorem maj_getLsbD (x y z : Word) (i : Nat) :
    (maj x y z).getLsbD i = decide (2 ≤ (x.getLsbD i).toNat + (y.getLsbD i).toNat + (z.getLsbD i).toNat) := by
  rw [maj, BitVec.getLsbD_or, BitVec.getLsbD_and, BitVec.getLsbD_and, BitVec.getLsbD_or]
  cases x.getLsbD i <;> cases y.getLsbD i <;> cases z.getLsbD i <;> rfl

/-- Settles O19: bit by bit. -/
theorem chooseAndMajority : Obligations.ChooseAndMajority := fun x y z i =>
  ⟨ch_getLsbD x y z i, maj_getLsbD x y z i⟩

end Sys2Proof.Machine
end

section
/-! SUPPORT. The constants as integer roots (40_digest.md R97, R98): the library's `Nat.nthRoot` gives the root of a
prime times a power of two, rounded down, and the constant is its low word. -/

namespace Sys2Proof.Machine

open Sys2Proof.Claims

/-- The low word of a root rounded down, by the two bounds that make it one. -/
theorem exists_root_of_eq {e a c : Nat} (he : e ≠ 0) (h : c = Nat.nthRoot e a % 2 ^ 32) :
    ∃ n : Nat, n ^ e ≤ a ∧ a < (n + 1) ^ e ∧ c = n % 2 ^ 32 :=
  ⟨Nat.nthRoot e a, Nat.pow_nthRoot_le (.inl he), Nat.lt_pow_nthRoot_add_one he a, h⟩

/-- `K[t]` is the first word of the fractional part of a cube root (R97). -/
theorem roundConstants_eq_cubeRoot : ∀ t, t < 64 →
    (roundConstants.getD t 0).toNat = Nat.nthRoot 3 (primes.getD t 0 * 2 ^ 96) % 2 ^ 32 := by
  decide +kernel

/-- `IV256[k]` is the first word of the fractional part of a square root (R98). -/
theorem initialHash_sha256_eq_squareRoot : ∀ k, k < 8 →
    ((wordList (initialHash .sha256)).getD k 0).toNat = Nat.nthRoot 2 (primes.getD k 0 * 2 ^ 64) % 2 ^ 32 := by
  decide +kernel

/-- `IV224[k]` is the second word of the fractional part of a square root (R98). -/
theorem initialHash_sha224_eq_squareRoot : ∀ k, k < 8 →
    ((wordList (initialHash .sha224)).getD k 0).toNat =
      Nat.nthRoot 2 (primes.getD (k + 8) 0 * 2 ^ 128) % 2 ^ 32 := by
  decide +kernel

/-- Settles O20: each constant is the low word of an integer root. -/
theorem constantsAreRootFractions : Obligations.ConstantsAreRootFractions :=
  ⟨roundConstants_length,
    fun t ht => exists_root_of_eq (by decide) (roundConstants_eq_cubeRoot t ht),
    fun k hk => exists_root_of_eq (by decide) (initialHash_sha256_eq_squareRoot k hk),
    fun k hk => exists_root_of_eq (by decide) (initialHash_sha224_eq_squareRoot k hk)⟩

end Sys2Proof.Machine
end

section
/-! SUPPORT. The message schedule and the rounds (40_digest.md R99 to R101). The schedule is made newest word first, so
what stood before the last `k` words were made is what is left after dropping `k` words. -/

namespace Sys2Proof.Machine

/-- The last word made comes of all the words before it. -/
theorem extendSchedule_succ (n : Nat) (newest : List Word) :
    extendSchedule (n + 1) newest = nextWord (extendSchedule n newest) :: extendSchedule n newest := by
  induction n generalizing newest with
  | zero => rfl
  | succ n ih => rw [extendSchedule, ih, extendSchedule]

@[simp] theorem extendSchedule_length (n : Nat) (newest : List Word) :
    (extendSchedule n newest).length = newest.length + n := by
  induction n with
  | zero => rfl
  | succ n ih => rw [extendSchedule_succ, List.length_cons, ih, Nat.add_assoc]

/-- Making `k` words more moves every word made before `k` places back. -/
theorem extendSchedule_getD_add (n k i : Nat) (newest : List Word) :
    (extendSchedule (n + k) newest).getD (i + k) 0 = (extendSchedule n newest).getD i 0 := by
  induction k with
  | zero => rfl
  | succ k ih => rw [← Nat.add_assoc, extendSchedule_succ, ← Nat.add_assoc, List.getD_cons_succ, ih]

/-- The first 16 words, newest first. -/
def blockWords (b : List Byte) : List Word := ((List.range 16).map (wordBe b)).reverse

@[simp] theorem blockWords_length (b : List Byte) : (blockWords b).length = 16 := by simp [blockWords]

theorem blockWords_getD (b : List Byte) {t : Nat} (ht : t < 16) : (blockWords b).getD (15 - t) 0 = wordBe b t := by
  have back : 16 - 1 - (15 - t) = t := by omega
  rw [blockWords, List.getD_reverse _ (by simp; omega), List.length_map, List.length_range, back,
    List.getD_eq_getElem _ _ (by simpa using ht)]
  simp

@[simp] theorem schedule_length (b : List Byte) : (schedule b).length = 64 := by simp [schedule]

/-- `W[t]` is at place `i` of the list that `n` derived words stand in, where `t` and `i` count its `n + 16` words from
the two ends. -/
theorem schedule_getD (b : List Byte) {t i n : Nat} (ends : t + i = n + 15) (hn : n ≤ 48) :
    (schedule b).getD t 0 = (extendSchedule n (blockWords b)).getD i 0 := by
  have length_eq : (extendSchedule 48 (blockWords b)).length = 64 := by simp
  have made_after : 48 = n + (48 - n) := by omega
  have place : 64 - 1 - t = i + (48 - n) := by omega
  calc (schedule b).getD t 0
    _ = (extendSchedule 48 (blockWords b)).getD (64 - 1 - t) 0 := by
      rw [schedule, ← blockWords, List.getD_reverse _ (by omega), length_eq]
    _ = (extendSchedule (n + (48 - n)) (blockWords b)).getD (i + (48 - n)) 0 := by rw [place, ← made_after]
    _ = (extendSchedule n (blockWords b)).getD i 0 := extendSchedule_getD_add ..

/-- The first 16 words of the schedule are those of the block (R99). -/
theorem schedule_getD_of_lt (b : List Byte) {t : Nat} (ht : t < 16) : (schedule b).getD t 0 = wordBe b t :=
  (schedule_getD b (n := 0) (i := 15 - t) (by omega) (by omega)).trans (blockWords_getD b ht)

/-- Each later word of the schedule comes of four earlier ones (R99). -/
theorem schedule_getD_add_16 (b : List Byte) {m : Nat} (hm : m < 48) :
    (schedule b).getD (m + 16) 0 =
      sigma1 ((schedule b).getD (m + 14) 0) + (schedule b).getD (m + 9) 0 +
        sigma0 ((schedule b).getD (m + 1) 0) + (schedule b).getD m 0 := by
  have before {t i : Nat} (ends : t + i = m + 15) :
      (schedule b).getD t 0 = (extendSchedule m (blockWords b)).getD i 0 := schedule_getD b ends (by omega)
  rw [schedule_getD b (n := m + 1) (i := 0) rfl (by omega), extendSchedule_succ, List.getD_cons_zero, nextWord,
    before (i := 1) rfl, before (i := 6) rfl, before (i := 14) rfl, before (i := 15) rfl]

/-- Settles O21: the words read from the block, and the recurrence. -/
theorem scheduleRecurrence : Obligations.ScheduleRecurrence := by
  refine fun b => ⟨schedule_length b, fun t ht => schedule_getD_of_lt b ht, fun t ht16 ht64 => ?_⟩
  obtain ⟨m, rfl⟩ := Nat.exists_eq_add_of_le' ht16
  exact schedule_getD_add_16 b (by omega)

/-- The working variables before round `t` of a compression (R101). -/
def workingVars (h : HashWords) (b : List Byte) (t : Nat) : HashWords :=
  rounds ((roundConstants.zip (schedule b)).take t) h

theorem workingVars_zero (h : HashWords) (b : List Byte) : workingVars h b 0 = h := rfl

/-- From each of the 64 rounds to the next, with the round's constant and its word of the schedule (R100). -/
theorem workingVars_succ (h : HashWords) (b : List Byte) {t : Nat} (ht : t < 64) :
    workingVars h b (t + 1) =
      round (roundConstants.getD t 0) ((schedule b).getD t 0) (workingVars h b t) := by
  have hk : t < roundConstants.length := by rw [roundConstants_length]; exact ht
  have hw : t < (schedule b).length := by rw [schedule_length]; exact ht
  have hz : t < (roundConstants.zip (schedule b)).length := by rw [List.length_zip]; exact lt_min hk hw
  rw [workingVars, rounds, ← List.take_concat_get' _ t hz, List.foldl_append, List.getElem_zip,
    List.getD_eq_getElem _ _ hk, List.getD_eq_getElem _ _ hw]
  rfl

/-- `Compress` adds the working variables after 64 rounds to the state words (R101). -/
theorem compress_eq_addWords_workingVars (h : HashWords) (b : List Byte) :
    compress h b = addWords h (workingVars h b 64) := by
  rw [compress, workingVars, List.take_of_length_le]
  simp [roundConstants_length]

/-- Settles O22: the working variables, round by round. -/
theorem compressRunsTheRounds : Obligations.CompressRunsTheRounds := fun h b =>
  ⟨workingVars h b, workingVars_zero h b, fun _ ht => workingVars_succ h b ht, compress_eq_addWords_workingVars h b⟩

end Sys2Proof.Machine
end

section
/-! SUPPORT. Whole blocks by their indices, and the fold of `Compress` over them (40_digest.md R104). -/

namespace Sys2Proof.Machine

open Sys2Proof.Claims

/-- A block of what is left after the first block is the next block. -/
theorem block_drop (p : List Byte) (k : Nat) : block (p.drop 64) k = block p (k + 1) := by
  rw [block, List.drop_drop, block, Nat.mul_succ, Nat.add_comm]

/-- The first blocks one after another are the blocks of the first indices. -/
theorem takeBlocks_eq_map_block (q : Nat) (p : List Byte) : takeBlocks q p = (List.range q).map (block p) := by
  induction q generalizing p with
  | zero => rfl
  | succ q ih =>
    rw [takeBlocks, ih, List.range_succ_eq_map, List.map_cons, List.map_map]
    exact congrArg₂ List.cons rfl (List.map_congr_left fun k _ => block_drop p k)

/-- `Compress` folded over the whole blocks, written with their indices (R104). -/
theorem foldl_wholeBlocks (h : HashWords) (p : List Byte) :
    (wholeBlocks p).foldl compress h = foldBlocks h p (p.length / 64) := by
  rw [wholeBlocks, takeBlocks_eq_map_block, List.foldl_map, foldBlocks]

/-- The state that absorbing leaves (R104). -/
theorem ctxAbsorb_state (c : DigestCtx) (data : List Byte) :
    (ctxAbsorb c data).state = foldBlocks c.state (c.buffer ++ data) ((c.buffer ++ data).length / 64) :=
  foldl_wholeBlocks ..

/-- Settles O23: field by field. -/
theorem absorbRule : Obligations.AbsorbRule := by
  refine fun c data => ⟨rfl, ctxAbsorb_state c data, ?_, ?_, rfl⟩
  · simp [BitVec.toNat_add]
  · simp

/-- Absorbing pieces in order is absorbing their concatenation (R105). -/
theorem foldl_ctxAbsorb {c : DigestCtx} (pieces : List (List Byte)) (bounded : c.Bounded) :
    pieces.foldl ctxAbsorb c = ctxAbsorb c pieces.flatten := by
  induction pieces generalizing c with
  | nil => exact (ctxAbsorb_nil bounded).symm
  | cons x xs ih =>
    rw [List.foldl_cons, ih (ctxAbsorb_bounded c x), ctxAbsorb_ctxAbsorb, List.flatten_cons]

/-- Settles O24: two pieces, and then any number of them. -/
theorem absorbIsChunkInvariant : Obligations.AbsorbIsChunkInvariant :=
  ⟨ctxAbsorb_ctxAbsorb, fun _ pieces bounded => foldl_ctxAbsorb pieces bounded⟩

end Sys2Proof.Machine
end

section
/-! SUPPORT. Padding, finalizing and serialising (40_digest.md R106 to R109). -/

namespace Sys2Proof.Machine

open Sys2Proof.Claims

/-! ### The padding -/

@[simp] theorem pad_length (n : Nat) (total : Quad) : (pad n total).length = padZeros n + 9 := by
  simp [pad]

/-- The number of zeros, as R106 writes it. -/
theorem padZeros_eq (n : Nat) : (padZeros n : Int) = (55 - (n : Int)) % 64 := by
  unfold padZeros; omega

/-- The zeros bring the trailer to a length of 56 mod 64, whatever stands in front of the padding (R106). -/
theorem padZeros_mod (n : Nat) : (n + 1 + padZeros n) % 64 = 56 := by
  have h := padZeros_eq n
  omega

/-- The buffered bytes and the padding are one block where the trailer still fits into it, and two otherwise (R106). -/
theorem add_pad_length {n : Nat} (total : Quad) (hn : n < 64) :
    n + (pad n total).length = if n ≤ 55 then 64 else 128 := by
  have h := padZeros_eq n
  rw [pad_length]
  split <;> omega

/-- The trailer is the low 64 bits of the bit count (R106, R114). -/
theorem beValue_trailer (total : Quad) : beValue (be64 (total * 8)) = total.toNat * 8 % 2 ^ 64 := by
  rw [beValue_be64, BitVec.toNat_mul]
  rfl

/-- Settles O25: the zeros, and the trailer read as a number. -/
theorem paddingRule : Obligations.PaddingRule := fun n total hn =>
  ⟨padZeros n, be64 (total * 8), rfl, padZeros_eq n, padZeros_mod n, be64_length _, beValue_trailer total,
    add_pad_length total (by omega)⟩

/-! ### Finalizing -/

/-- The digest by the fold over the blocks of the last bytes (R107). -/
theorem ctxFinalize_eq_foldBlocks (c : DigestCtx) :
    ctxFinalize c =
      (serialise (foldBlocks c.state (lastBytes c) ((lastBytes c).length / 64))).take (dsize c.variant) := by
  rw [ctxFinalize, foldl_wholeBlocks]

theorem lastBytes_length {c : DigestCtx} (bounded : c.Bounded) :
    (lastBytes c).length = if c.buffer.length ≤ 55 then 64 else 128 := by
  rw [lastBytes, List.length_append, add_pad_length _ bounded]

/-- Settles O26: the fold over the last bytes, which are one block or two. -/
theorem finalizeRule : Obligations.FinalizeRule := by
  refine fun c => ⟨ctxFinalize_eq_foldBlocks c, ctxFinalize_length c, fun hlen => ?_⟩
  have hlast := lastBytes_length (c := c) (Nat.lt_succ_of_le hlen)
  split at hlast
  · exact .inl hlast
  · exact .inr hlast

/-! ### The serialised state -/

theorem serialise_eq_flatMap (s : HashWords) : serialise s = (wordList s).flatMap be32 := by
  simp [serialise, wordList]

/-- Byte `j` of a word, the most significant first (00_scope.md R11). -/
theorem be32_getD (w : Word) {j : Nat} (hj : j < 4) : (be32 w).getD j 0 = w.extractLsb' (24 - 8 * j) 8 := by
  interval_cases j <;> rfl

/-- Words written one after another: byte `4k + j` is byte `j` of word `k`. -/
theorem flatMap_be32_getD (ws : List Word) {k j : Nat} (hk : k < ws.length) (hj : j < 4) :
    (ws.flatMap be32).getD (4 * k + j) 0 = (be32 (ws.getD k 0)).getD j 0 := by
  induction ws generalizing k with
  | nil => cases hk
  | cons w ws ih =>
    rw [List.flatMap_cons]
    cases k with
    | zero => rw [Nat.mul_zero, Nat.zero_add, List.getD_append _ _ _ _ (by simpa using hj), List.getD_cons_zero]
    | succ k =>
      have place : 4 * (k + 1) + j - (be32 w).length = 4 * k + j := by rw [be32_length]; omega
      rw [List.getD_append_right _ _ _ _ (by rw [be32_length]; omega), place, List.getD_cons_succ,
        ih (Nat.lt_of_succ_lt_succ hk)]

/-- Settles O27: the words in order, and the bytes of a word in order. -/
theorem serialisationRule : Obligations.SerialisationRule := fun s =>
  ⟨serialise_length s, fun k j hk hj => by rw [serialise_eq_flatMap, flatMap_be32_getD _ hk hj, be32_getD _ hj]⟩

/-! ### The hash of a message -/

/-- A message and its padding. -/
def padded (m : List Byte) : List Byte := m ++ pad (m.length % 64) (BitVec.ofNat 64 m.length)

/-- The padding fills the last block (R106). -/
theorem padded_length_mod (m : List Byte) : (padded m).length % 64 = 0 := by
  have h := padZeros_mod (m.length % 64)
  rw [padded, List.length_append, pad_length]
  omega

/-- What finalizing compresses after a whole message: what is left of the message after its blocks, and its padding. -/
theorem lastBytes_ctxAbsorb_ctxInit (m : List Byte) (v : Variant) :
    lastBytes (ctxAbsorb (ctxInit v) m) = afterBlocks m ++ pad (m.length % 64) (BitVec.ofNat 64 m.length) := by
  simp [lastBytes, ctxAbsorb]

/-- Absorbing a message compresses its whole blocks, and finalizing the rest of the padded message's (R109). -/
theorem hashFn_eq_foldl_padded (m : List Byte) (v : Variant) :
    hashFn m v = (serialise ((wholeBlocks (padded m)).foldl compress (initialHash v))).take (dsize v) := by
  rw [hashFn, ctxFinalize, lastBytes_ctxAbsorb_ctxInit, padded, wholeBlocks_append m, List.foldl_append]
  rfl

/-- Settles O28: the padding fills the last block, and the fold over the blocks of the padded message. -/
theorem hashIsPaddedFold : Obligations.HashIsPaddedFold := fun m v =>
  ⟨padded_length_mod m, by rw [hashFn_eq_foldl_padded, foldl_wholeBlocks]; rfl⟩

end Sys2Proof.Machine
end

section
/-! SUPPORT. The four digest commands, with their checks passed and failed (40_digest.md R110 to R113), and the work of
finalizing (70_reset_and_hazards.md R200). -/

namespace Sys2Proof.Machine

open Sys2Proof.Claims

variable {i : Instr} {s : State}

/-- A command whose check passes completes as planned. -/
theorem exec_of_check_passed (h : (plan i s).check = none) :
    exec i s = .next ((plan i s).written.deliver ⟨.ok, (plan i s).out⟩) := by
  rw [exec_eq_checked, h]
  rfl

/-- A command whose check fails only responds (60_exceptions.md R176). -/
theorem exec_of_check_failed {st : Status} (h : (plan i s).check = some st) :
    exec i s = .next (responded s st []) := by
  rw [exec_eq_checked, h]
  rfl

/-- A fresh context has absorbed the empty message, so its digest is the empty message's hash (R112). -/
theorem ctxFinalize_ctxInit (v : Variant) : ctxFinalize (ctxInit v) = hashFn [] v := by
  rw [hashFn, ← ctxInit_eq_ctxAbsorb_nil]

/-- Finalizing evaluates `Compress` once for each block of the last bytes (R200). -/
theorem countedFinalize_of_bounded {c : DigestCtx} (bounded : c.Bounded) :
    countedFinalize c = ⟨ctxFinalize c, if c.buffer.length ≤ 55 then 1 else 2, 0⟩ := by
  rw [countedFinalize_eq, lastBytes_length bounded]
  split <;> rfl

/-- Settles O29: `INIT` has no check. -/
theorem initCompletes : Obligations.InitCompletes :=
  ⟨presents_cmd8 0x1 false fun _ => rfl, presents_cmd8 0x1 true fun _ => rfl,
    fun _ _ => exec_of_check_passed rfl⟩

/-- Settles O30: the check by the phase, and absorbing, counted or not. -/
theorem absorbCompletes : Obligations.AbsorbCompletes :=
  ⟨presents_cmd8 0x2 false fun _ => rfl, fun b s =>
    ⟨fun active => exec_of_check_passed (digestCheck_eq_none.mpr active),
      fun idle => exec_of_check_failed (congrArg digestCheck idle),
      fun bounded => ctxAbsorb_nil bounded,
      countedAbsorb_eq s.dctx.ctx b⟩⟩

/-- Settles O31: the check by the phase, with the free values drawn for what is left, and finalizing, counted. -/
theorem finalizeCompletes : Obligations.FinalizeCompletes :=
  ⟨presents_cmd8 0x3 false fun _ => rfl, ctxFinalize_ctxInit, fun s =>
    ⟨fun active =>
        ⟨freeDigestCtx s.freeCount, s.freeCount + 1, exec_of_check_passed (digestCheck_eq_none.mpr active)⟩,
      fun idle => exec_of_check_failed (congrArg digestCheck idle),
      fun hlen => countedFinalize_of_bounded (Nat.lt_succ_of_le hlen)⟩⟩

/-- Settles O32: `HASH` has no check and writes nothing. -/
theorem hashCompletes : Obligations.HashCompletes :=
  ⟨presents_cmd8 0x4 false fun _ => rfl, presents_cmd8 0x4 true fun _ => rfl,
    fun _ _ _ => exec_of_check_passed rfl⟩

end Sys2Proof.Machine
end

section
/-! SUPPORT. The HMAC functions (41_hmac.md R131 to R134, R142): the key pads byte by byte, the MAC as a nested hash,
and keys that act alike. -/

namespace Sys2Proof.Machine

open Sys2Proof.Claims

variable {key : List Byte} {v : Variant}

/-! ### The key pads -/

/-- Byte by byte a key's block is what `k64` was extended from, and zero past its end (R131). -/
theorem blockKey_getD (key : List Byte) (v : Variant) (i : Nat) :
    (blockKey key v).getD i 0 = (if key.length > 64 then hashFn key v else key).getD i 0 := by
  simp only [blockKey]
  generalize (if key.length > 64 then hashFn key v else key) = k
  by_cases hi : i < k.length
  · exact List.getD_append _ _ _ _ hi
  · have past : k.length ≤ i := Nat.le_of_not_lt hi
    rw [List.getD_append_right _ _ _ _ past, List.getD_eq_getElem?_getD, List.getElem?_getD_replicate_default_eq,
      List.getD_eq_default _ _ past]

/-- Byte `i` of a pad is the pad's fixed byte and byte `i` of the key's block (R131). -/
theorem map_xor_getD (x : Byte) {k64 : List Byte} {i : Nat} (hi : i < k64.length) :
    (k64.map (x ^^^ ·)).getD i 0 = x ^^^ k64.getD i 0 := by
  rw [List.getD_eq_getElem _ _ (by simpa using hi), List.getElem_map, List.getD_eq_getElem _ _ hi]

/-- Settles O33: both pads have the length of the key's block, and are made of it byte by byte. -/
theorem keyPadsRule : Obligations.KeyPadsRule := by
  refine fun key v => ⟨keyIpad_length key v, keyOpad_length key v, fun i hi => ?_⟩
  have inBlock : i < (blockKey key v).length := by rw [blockKey_length]; exact hi
  rw [← blockKey_getD, keyIpad, keyOpad]
  exact ⟨map_xor_getD _ inBlock, map_xor_getD _ inBlock⟩

/-! ### The inner context and the nested hash -/

/-- A sequence of one block's length is its only whole block, and nothing is left after it (40_digest.md R104). -/
theorem wholeBlocks_of_length_eq {p : List Byte} (h : p.length = 64) : wholeBlocks p = [p] := by
  simp [wholeBlocks, h, takeBlocks, List.take_of_length_le]

theorem afterBlocks_of_length_eq {p : List Byte} (h : p.length = 64) : afterBlocks p = [] := by
  simp [afterBlocks, h]

/-- Settles O34: a 64-byte `ipad` is one whole block, and nothing is buffered after it. -/
theorem hmacStartIsOneBlock : Obligations.HmacStartIsOneBlock := by
  intro ipad v hlen
  simp [hmacStart, ctxAbsorb, wholeBlocks_of_length_eq hlen, afterBlocks_of_length_eq hlen, hlen]

/-- The inner digest is the hash of `ipad` and the message (R134). -/
theorem ctxFinalize_inner (ipad msg : List Byte) (v : Variant) :
    ctxFinalize (ctxAbsorb (hmacStart ipad v) msg) = hashFn (ipad ++ msg) v := by
  rw [hmacStart, ctxAbsorb_ctxAbsorb, hashFn]

/-- The outer digest is the hash of `opad` and the inner digest (R133). -/
theorem hmacFinishFn_eq_hashFn (inner : DigestCtx) (opad : List Byte) (v : Variant) :
    hmacFinishFn inner opad v = hashFn (opad ++ ctxFinalize inner) v := by
  rw [hmacFinishFn, ctxAbsorb_ctxAbsorb, hashFn]

/-- Settles O35: two absorbs into a context are one of the concatenation, in the inner hash and in the outer. -/
theorem hmacIsNestedHash : Obligations.HmacIsNestedHash := fun key msg v => by
  rw [hmacFn, hmacFinishFn_eq_hashFn, ctxFinalize_inner]

/-! ### Keys that act alike -/

/-- The hash of a long key is short enough to be used as it is, so the two have the same block (R142). -/
theorem blockKey_hashFn (hlong : 64 < key.length) : blockKey (hashFn key v) v = blockKey key v := by
  have hshort : ¬ (hashFn key v).length > 64 := by
    have hv := dsize_le v
    rw [hashFn_length]
    omega
  simp only [blockKey, if_neg hshort, if_pos hlong]

/-- A key acts through its block alone (R131, R134). -/
theorem hmacFn_congr {key' : List Byte} (h : blockKey key v = blockKey key' v) (msg : List Byte) :
    hmacFn key msg v = hmacFn key' msg v := by
  simp only [hmacFn, keyIpad, keyOpad, h]

section
variable {password password' : List Byte} (h : ∀ u, hmacFn password u .sha256 = hmacFn password' u .sha256)
include h

theorem pbkdfLoop_congr (n : Nat) (u t : List Byte) : pbkdfLoop password n u t = pbkdfLoop password' n u t := by
  induction n generalizing u t with
  | zero => rfl
  | succ n ih => simp only [pbkdfLoop, h, ih]

/-- A password acts through the MACs that it keys alone (42_pbkdf2.md R151 to R153). -/
theorem pbkdf2_congr (salt : List Byte) (c len : Nat) : pbkdf2 password salt c len = pbkdf2 password' salt c len := by
  simp only [pbkdf2, pbkdfBlock, h, pbkdfLoop_congr h]

end

/-- Settles O36: a long key and its hash have the same block, so they key the same MACs. -/
theorem longKeyActsAsItsHash : Obligations.LongKeyActsAsItsHash := by
  intro key hlong
  have same_mac (msg : List Byte) (v : Variant) : hmacFn key msg v = hmacFn (hashFn key v) msg v :=
    hmacFn_congr (blockKey_hashFn hlong).symm msg
  exact ⟨same_mac, pbkdf2_congr fun u => same_mac u .sha256⟩

end Sys2Proof.Machine
end

section
/-! SUPPORT. The five HMAC commands, with their checks passed and failed (41_hmac.md R135 to R139). -/

namespace Sys2Proof.Machine

open Sys2Proof.Claims

/-- The phases in which `HMAC_UPDATE` and `HMAC_FINISH` are rejected (60_exceptions.md R173). -/
theorem macCheck_of_not_active {p : HmacPhase} (h : p = .idle ∨ p = .finished) : macCheck p = some .errSequence := by
  rcases h with rfl | rfl <;> rfl

/-- The phases in which `HMAC_RESET` runs (R173). -/
theorem keyCheck_of_keyed {p : HmacPhase} (h : p = .active ∨ p = .finished) : keyCheck p = none := by
  rcases h with rfl | rfl <;> rfl

/-- Settles O37: `HMAC_INIT` has no check. -/
theorem hmacInitCompletes : Obligations.HmacInitCompletes :=
  ⟨presents_cmd8 0x5 false fun _ => rfl, presents_cmd8 0x5 true fun _ => rfl,
    fun _ _ _ => exec_of_check_passed rfl⟩

/-- Settles O38: the check by the phase, and absorbing nothing. -/
theorem hmacUpdateCompletes : Obligations.HmacUpdateCompletes :=
  ⟨presents_cmd8 0x6 false fun _ => rfl, fun _ _ =>
    ⟨fun active => exec_of_check_passed (macCheck_eq_none.mpr active),
      fun other => exec_of_check_failed (macCheck_of_not_active other),
      fun bounded => ctxAbsorb_nil bounded⟩⟩

/-- Settles O39: the check by the phase, with the free values drawn for what is left in the inner context. -/
theorem hmacFinishCompletes : Obligations.HmacFinishCompletes :=
  ⟨presents_cmd8 0x7 false fun _ => rfl, fun s =>
    ⟨fun active =>
        ⟨freeDigestCtx s.freeCount, s.freeCount + 1, exec_of_check_passed (macCheck_eq_none.mpr active)⟩,
      fun other => exec_of_check_failed (macCheck_of_not_active other)⟩⟩

/-- Settles O40: the check by the phase. -/
theorem hmacResetCompletes : Obligations.HmacResetCompletes :=
  ⟨presents_cmd8 0x8 false fun _ => rfl, fun _ =>
    ⟨fun keyed => exec_of_check_passed (keyCheck_of_keyed keyed),
      fun idle => exec_of_check_failed (congrArg keyCheck idle)⟩⟩

/-- Settles O41: `HMAC` has no check and writes nothing. -/
theorem hmacCompletes : Obligations.HmacCompletes :=
  ⟨presents_cmd8 0x9 false fun _ => rfl, presents_cmd8 0x9 true fun _ => rfl,
    fun _ _ _ _ => exec_of_check_passed rfl⟩

end Sys2Proof.Machine
end

section
/-! SUPPORT. A MAC stream (41_hmac.md R139 to R141, 70_reset_and_hazards.md R196): what `HCTX` has absorbed since its
computation was started, and the key that stays loaded when it ends. -/

namespace Sys2Proof.Machine

open Sys2Proof.Claims

/-- `HCTX` is in use under a key, and has absorbed the message `m` since its computation was started. -/
def State.Macs (s : State) (v : Variant) (key m : List Byte) : Prop :=
  s.hctx = ⟨.active, v, keyIpad key v, keyOpad key v, ctxAbsorb (hmacStart (keyIpad key v) v) m⟩

/-- A key is loaded in `HCTX`, whether a computation runs under it or not. -/
structure State.HasKey (s : State) (v : Variant) (key : List Byte) : Prop where
  keyed   : s.hctx.phase ≠ .idle
  variant : s.hctx.variant = v
  ipad    : s.hctx.ipad = keyIpad key v
  opad    : s.hctx.opad = keyOpad key v

variable {s t : State} {v : Variant} {key m : List Byte} {i : Instr} {is : List Instr}

/-! ### From the start of a computation to its MAC -/

/-- `HMAC_INIT` starts a stream with nothing absorbed, on every state (R135). -/
theorem exec_hmacInit_macs (v : Variant) (key : List Byte) (s : State) :
    ∃ t, exec (.hmacInit v key) s = .next t ∧ t.Macs v key [] :=
  ⟨_, rfl, congrArg (Hctx.mk .active v _ _) (hmacStart_eq_ctxAbsorb_nil (keyIpad key v) v)⟩

/-- `HMAC_UPDATE` adds its data to the message, and another command that keeps the stream adds nothing (R136,
10_state.md R26). -/
theorem State.Macs.of_exec (hs : s.Macs v key m) (keeps : KeepsMacStream i) (h : exec i s = .next t) :
    t.Macs v key (m ++ updatedBy i) := by
  have unused (hi : usesHctx i = false) : t.Macs v key m := (exec_hctx_of_unused hi h).trans hs
  obtain ⟨noKey, noFinish, noReset⟩ := keeps
  cases i with
  | hmacInit w a => exact absurd rfl (noKey w a)
  | hmacFinish => exact absurd rfl noFinish
  | hmacReset => exact absurd rfl noReset
  | hmacUpdate b =>
    simp only [exec, execHmacUpdate, show s.hctx = _ from hs, macCheck, checked_none,
      ctxAbsorb_ctxAbsorb, complete_eq_next] at h
    exact h ▸ rfl
  | init | absorb | finalize | hash | hmac | deriveKey => simpa [updatedBy] using unused rfl

/-- Commands that keep the stream add to the message what they were given to absorb, in order. -/
theorem State.Macs.of_execAll (hs : s.Macs v key m) (keeps : ∀ i ∈ is, KeepsMacStream i) :
    ∃ t, execAll is s = .next t ∧ t.Macs v key (m ++ is.flatMap updatedBy) := by
  induction is generalizing s m with
  | nil => exact ⟨s, rfl, by simpa using hs⟩
  | cons i is ih =>
    obtain ⟨keepsHead, keepsTail⟩ := List.forall_mem_cons.mp keeps
    obtain ⟨u, hu, -⟩ := exec_answers i s
    obtain ⟨t, ht, macs⟩ := ih (hs.of_exec keepsHead hu) keepsTail
    exact ⟨t, (execAll_cons_of_next hu).trans ht, by simpa using macs⟩

/-- `HMAC_FINISH` ends a stream with the MAC of the message (R134, R137). -/
theorem State.Macs.of_hmacFinish (hs : s.Macs v key m) :
    ∃ t, exec .hmacFinish s = .next t ∧ t.responses = s.responses ++ [⟨.ok, hmacFn key m v⟩] := by
  simp only [exec, execHmacFinish, show s.hctx = _ from hs, macCheck, checked_none]
  exact ⟨_, rfl, rfl⟩

/-- Settles O56: the stream from `HMAC_INIT` to `HMAC_FINISH`. -/
theorem streamedMacEqualsHmac : Obligations.StreamedMacEqualsHmac := by
  intro v key is s keeps
  obtain ⟨s0, hinit, started⟩ := exec_hmacInit_macs v key s
  obtain ⟨s1, hall, macs⟩ := started.of_execAll keeps
  obtain ⟨t, hfinish, hresp⟩ := macs.of_hmacFinish
  refine ⟨t, ?_, by simp [hresp]⟩
  calc execAll (.hmacInit v key :: is ++ [.hmacFinish]) s
    _ = execAll (is ++ [.hmacFinish]) s0 := execAll_cons_of_next hinit
    _ = execAll [.hmacFinish] s1 := execAll_append_of_next hall
    _ = .next t := execAll_cons_of_next hfinish

/-! ### A new computation under the key already loaded -/

/-- A computation that runs has its key loaded. -/
theorem State.Macs.hasKey (hs : s.Macs v key m) : s.HasKey v key := by
  constructor <;> simp [show s.hctx = _ from hs]

/-- No command takes a loaded key away: none puts `HCTX` back to `IDLE` (10_state.md R28). -/
theorem Effect.phase_ne_idle (he : Effect i s t) (keyed : s.hctx.phase ≠ .idle) : t.hctx.phase ≠ .idle := by
  cases he with
  | respond | init | absorb | finalize | hmacUpdate => exact keyed
  | hmacInit | hmacFinish | hmacReset => exact nofun

/-- A command that loads no key leaves the key that is loaded (10_state.md R42). -/
theorem State.HasKey.of_exec (hs : s.HasKey v key) (noKey : LoadsNoKey i) (h : exec i s = .next t) :
    t.HasKey v key := by
  have he := effect_of_exec h
  obtain ⟨hvariant, hipad, hopad⟩ := he.key_eq noKey
  exact ⟨he.phase_ne_idle hs.keyed, hvariant.trans hs.variant, hipad.trans hs.ipad, hopad.trans hs.opad⟩

theorem State.HasKey.of_execAll (hs : s.HasKey v key) (noKey : ∀ i ∈ is, LoadsNoKey i)
    (h : execAll is s = .next t) : t.HasKey v key := by
  induction is generalizing s with
  | nil => cases h; exact hs
  | cons i is ih =>
    obtain ⟨noKeyHead, noKeyTail⟩ := List.forall_mem_cons.mp noKey
    obtain ⟨u, hu, -⟩ := exec_answers i s
    rw [execAll_cons_of_next hu] at h
    exact ih (hs.of_exec noKeyHead hu) noKeyTail h

/-- `HMAC_RESET` starts a stream with nothing absorbed, under the key that is loaded (R138). -/
theorem State.HasKey.of_hmacReset (hs : s.HasKey v key) : ∃ t, exec .hmacReset s = .next t ∧ t.Macs v key [] := by
  refine ⟨_, exec_of_check_passed (keyCheck_eq_none.mpr hs.keyed), ?_⟩
  simp [State.Macs, plan, hs.variant, hs.ipad, hs.opad, ← hmacStart_eq_ctxAbsorb_nil]

/-- Settles O57: `HMAC_INIT` and `HMAC_RESET` both leave `HCTX` with nothing absorbed under the one key. -/
theorem hmacResetEqualsReinit : Obligations.HmacResetEqualsReinit := by
  intro v key is s s0 s1 noKey hinit hall
  obtain ⟨u, hu, started⟩ := exec_hmacInit_macs v key s
  obtain rfl : u = s0 := Host.Outcome.next.inj (hu.symm.trans hinit)
  obtain ⟨t, hreset, restarted⟩ := (started.hasKey.of_execAll noKey hall).of_hmacReset
  exact ⟨t, hreset, Eq.trans restarted (Eq.symm started)⟩

end Sys2Proof.Machine
end

section
/-! SUPPORT. One block of PBKDF2 (42_pbkdf2.md R152): the chain of MACs and their running xor. -/

namespace Sys2Proof.Machine

/-- A byte of the xor of two sequences is the xor of their bytes (00_scope.md R10). -/
theorem xorBytes_getD {s t : List Byte} {k : Nat} (hs : k < s.length) (ht : k < t.length) :
    (xorBytes s t).getD k 0 = s.getD k 0 ^^^ t.getD k 0 := by
  have hk : k < (xorBytes s t).length := by rw [xorBytes_length]; exact lt_min hs ht
  rw [List.getD_eq_getElem _ _ hk, List.getD_eq_getElem _ _ hs, List.getD_eq_getElem _ _ ht]
  exact List.getElem_zipWith

/-- The chain of MACs after a first message, which stands at 0: each link is the MAC of what stands before it. -/
def macChain (password msg : List Byte) : Nat → List Byte
  | 0 => msg
  | j + 1 => hmacFn password (macChain password msg j) .sha256

/-- Each link of the chain is a MAC, so 32 bytes (R152). -/
theorem macChain_succ_length (password msg : List Byte) (j : Nat) : (macChain password msg (j + 1)).length = 32 :=
  hmacFn_length ..

/-- From link `j` on, the loop folds the next `n` links into the running xor, byte by byte. -/
theorem pbkdfLoop_macChain_getD (password msg : List Byte) (n j : Nat) {t : List Byte} (ht : t.length = 32) {k : Nat}
    (hk : k < 32) :
    (pbkdfLoop password n (macChain password msg j) t).getD k 0 =
      (List.range' (j + 1) n).foldl (fun x l => x ^^^ (macChain password msg l).getD k 0) (t.getD k 0) := by
  induction n generalizing j t with
  | zero => rfl
  | succ n ih =>
    have link_length := macChain_succ_length password msg j
    have next_length : (xorBytes t (macChain password msg (j + 1))).length = 32 := by simp [ht, link_length]
    have next_getD : (xorBytes t (macChain password msg (j + 1))).getD k 0 =
        t.getD k 0 ^^^ (macChain password msg (j + 1)).getD k 0 := xorBytes_getD (by omega) (by omega)
    rw [List.range'_succ, List.foldl_cons, ← next_getD]
    exact ih (j + 1) next_length

/-- A block starts from the chain's first link (R152). -/
theorem pbkdfBlock_eq_pbkdfLoop (password salt : List Byte) (c i : Nat) :
    pbkdfBlock password salt c i =
      pbkdfLoop password (c - 1) (macChain password (blockMessage salt i) 1)
        (macChain password (blockMessage salt i) 1) := rfl

/-- Settles O42: the chain after the block's first message, folded from its second link on. -/
theorem pbkdfBlockRule : Obligations.PbkdfBlockRule := by
  intro password salt c i _ _ _
  refine ⟨macChain password (blockMessage salt i), rfl, fun _ _ => rfl, fun j hj => ?_, pbkdfBlock_length ..,
    fun k hk => ?_⟩
  · obtain ⟨n, rfl⟩ := Nat.exists_eq_add_of_le' hj
    exact macChain_succ_length ..
  · rw [pbkdfBlock_eq_pbkdfLoop]
    exact pbkdfLoop_macChain_getD password (blockMessage salt i) (c - 1) 1 (macChain_succ_length _ _ 0) hk

end Sys2Proof.Machine
end

section
/-! SUPPORT. The derived key (42_pbkdf2.md R153, R158): enough blocks, cut to length. -/

namespace Sys2Proof.Machine

/-- Blocks 1 to `n`, in order (R153). -/
def pbkdfBlocks (password salt : List Byte) (c n : Nat) : List Byte :=
  (List.range n).flatMap fun k => pbkdfBlock password salt c (k + 1)

section
variable (password salt : List Byte) (c : Nat)

@[simp] theorem pbkdfBlocks_length (n : Nat) : (pbkdfBlocks password salt c n).length = 32 * n := by
  simp [pbkdfBlocks, List.length_flatMap, Nat.mul_comm]

theorem pbkdfBlocks_eq_flatMap_range' (n : Nat) :
    pbkdfBlocks password salt c n = (List.range' 1 n).flatMap (pbkdfBlock password salt c) := by
  rw [pbkdfBlocks, List.range'_eq_map_range, List.flatMap_map]
  simp only [Nat.add_comm 1]

/-- More blocks go behind those that are there, so where there are enough the front does not depend on how many. -/
theorem take_pbkdfBlocks {len n n' : Nat} (enough : len ≤ 32 * n) (h : n ≤ n') :
    (pbkdfBlocks password salt c n').take len = (pbkdfBlocks password salt c n).take len := by
  obtain ⟨d, rfl⟩ := Nat.exists_eq_add_of_le h
  have hlen : len ≤ (pbkdfBlocks password salt c n).length := by simpa using enough
  rw [pbkdfBlocks, List.range_add, List.flatMap_append]
  exact List.take_append_of_le_length hlen

/-- The key is the front of the least number of blocks that hold it (R153). -/
theorem pbkdf2_eq_take (len : Nat) :
    pbkdf2 password salt c len = (pbkdfBlocks password salt c ((len + 31) / 32)).take len := rfl

end

/-- Settles O43: `ceil(L / 32)` blocks, counted from 1. -/
theorem pbkdf2Rule : Obligations.Pbkdf2Rule := by
  intro password salt c len _ _
  refine ⟨(len + 31) / 32, by omega, by omega, ?_, pbkdf2_length ..⟩
  rw [← pbkdfBlocks_eq_flatMap_range', pbkdf2_eq_take]

/-- Settles O44: the blocks of the shorter key are the first blocks of the longer one. -/
theorem pbkdf2Truncation : Obligations.Pbkdf2Truncation := by
  intro password salt c short long hle
  have fewer : (short + 31) / 32 ≤ (long + 31) / 32 := by omega
  calc pbkdf2 password salt c short
    _ = (pbkdfBlocks password salt c ((short + 31) / 32)).take short := pbkdf2_eq_take ..
    _ = (pbkdfBlocks password salt c ((long + 31) / 32)).take short :=
      (take_pbkdfBlocks password salt c (by omega) fewer).symm
    _ = (pbkdf2 password salt c long).take short := by rw [pbkdf2_eq_take, List.take_take, min_eq_left hle]

end Sys2Proof.Machine
end

section
/-! SUPPORT. `DERIVE_KEY` (42_pbkdf2.md R154 to R156), its check passed and failed, and its work (R161). -/

namespace Sys2Proof.Machine

open Sys2Proof.Claims

section
variable {iter : BitVec 32} {klen : Quad}

theorem deriveCheck_of_iter_zero (h : iter = 0) : deriveCheck iter klen = some .errIterZero := if_pos h

theorem deriveCheck_of_klen_large (hiter : iter ≠ 0) (hklen : Config.klenMax < klen.toNat) :
    deriveCheck iter klen = some .errLengthRange := (if_neg hiter).trans (if_pos hklen)

theorem deriveCheck_of_allowed (hiter : iter ≠ 0) (hklen : klen.toNat ≤ Config.klenMax) :
    deriveCheck iter klen = none := (if_neg hiter).trans (if_neg (Nat.not_lt.mpr hklen))

end

/-- A request whose command word is not one of the legal bytes does not decode (30_encoding.md R74). -/
theorem decode_error_of_not_legal {r : Request} (h : r.cmd ∉ legalBytes) : ∃ e, decode r = .error e := by
  cases hdecode : decode r with
  | error e => exact ⟨e, rfl⟩
  | ok i => exact absurd ((decodes_iff_legal r).mp ⟨i, hdecode⟩) h

@[simp] theorem countedPbkdf2_value (password salt : List Byte) (c len : Nat) :
    (countedPbkdf2 password salt c len).value = pbkdf2 password salt c len := by
  rw [countedPbkdf2, Counted.map_value, countedBlocks_value, pbkdf2]

/-- Each block is `c` evaluations of `HmacFn` (R161). -/
theorem countedPbkdf2_macs (password salt : List Byte) {c : Nat} (len : Nat) (hc : 1 ≤ c) :
    (countedPbkdf2 password salt c len).macs = (len + 31) / 32 * c := by
  rw [countedPbkdf2, Counted.map_macs, countedBlocks_macs _ _ _ hc, List.length_range]

/-- Settles O45: the check by `ITER` and then by `KLEN`, and the work of as many blocks as the key has. -/
theorem deriveKeyCompletes : Obligations.DeriveKeyCompletes := by
  refine ⟨presents_cmd8 0xA false fun _ => rfl, fun r hr => decode_error_of_not_legal (by rw [hr]; decide),
    fun a b iter klen s => ⟨fun hiter hklen => ⟨?_, countedPbkdf2_value .., ?_⟩,
      fun hiter => exec_of_check_failed (deriveCheck_of_iter_zero hiter),
      fun hiter hklen => exec_of_check_failed (deriveCheck_of_klen_large hiter hklen),
      List.take_zero⟩⟩
  · exact exec_of_check_passed (deriveCheck_of_allowed hiter hklen)
  · exact countedPbkdf2_macs a b _ (Nat.pos_of_ne_zero (BitVec.toNat_ne_iff_ne.mpr hiter))

end Sys2Proof.Machine
end

section
/-! SUPPORT. One HMAC context reset between uses (42_pbkdf2.md R159, 41_hmac.md R140, R141). -/

namespace Sys2Proof.Machine

open Sys2Proof.Claims

variable {s t : State} {i : Instr} {v : Variant} {key : List Byte}

/-- A command whose check passes answers `OK` with its planned output. -/
theorem responses_of_check_passed (passed : (plan i s).check = none) (h : exec i s = .next t) :
    t.responses = s.responses ++ [⟨.ok, (plan i s).out⟩] := by
  rw [exec_of_check_passed passed] at h
  cases h
  simp

/-- The commands that take one MAC in a context already started, and start it anew. -/
def macRound (m : List Byte) : List Instr := [.hmacUpdate m, .hmacFinish, .hmacReset]

/-- What they answer under a key. -/
def macRoundResponses (v : Variant) (key m : List Byte) : List Response :=
  [⟨.ok, []⟩, ⟨.ok, hmacFn key m v⟩, ⟨.ok, []⟩]

/-- A round gives the MAC of its message and leaves the context as it found it: nothing absorbed under the key. -/
theorem State.Macs.of_macRound (hs : s.Macs v key []) (m : List Byte) :
    ∃ t, execAll (macRound m) s = .next t ∧ t.Macs v key [] ∧
      t.responses = s.responses ++ macRoundResponses v key m := by
  obtain ⟨s1, hupdate, -⟩ := exec_answers (.hmacUpdate m) s
  have updated : s1.Macs v key m := hs.of_exec (by simp [KeepsMacStream, LoadsNoKey]) hupdate
  obtain ⟨s2, hfinish, resp2⟩ := updated.of_hmacFinish
  have finished : s2.HasKey v key := updated.hasKey.of_exec (by simp [LoadsNoKey]) hfinish
  obtain ⟨t, hreset, restarted⟩ := finished.of_hmacReset
  have active : s.hctx.phase = .active := congrArg Hctx.phase hs
  have resp1 : s1.responses = s.responses ++ [⟨.ok, []⟩] :=
    responses_of_check_passed (i := .hmacUpdate m) (macCheck_eq_none.mpr active) hupdate
  have resp3 : t.responses = s2.responses ++ [⟨.ok, []⟩] :=
    responses_of_check_passed (i := .hmacReset) (keyCheck_eq_none.mpr finished.keyed) hreset
  refine ⟨t, ?_, restarted, by simp [resp1, resp2, resp3, macRoundResponses]⟩
  calc execAll (macRound m) s
    _ = execAll [.hmacFinish, .hmacReset] s1 := execAll_cons_of_next hupdate
    _ = execAll [.hmacReset] s2 := execAll_cons_of_next hfinish
    _ = .next t := execAll_cons_of_next hreset

/-- Rounds one after another, each from the context that the one before it left. -/
theorem State.Macs.of_macRounds (hs : s.Macs v key []) (msgs : List (List Byte)) :
    ∃ t, execAll (msgs.flatMap macRound) s = .next t ∧
      t.responses = s.responses ++ msgs.flatMap (macRoundResponses v key) := by
  induction msgs generalizing s with
  | nil => exact ⟨s, rfl, by simp⟩
  | cons m msgs ih =>
    obtain ⟨u, hround, restarted, hresp⟩ := hs.of_macRound m
    obtain ⟨t, ht, hresps⟩ := ih restarted
    exact ⟨t, (execAll_append_of_next hround).trans ht, by simp [hresps, hresp]⟩

/-- Settles O58: `HMAC_INIT` starts the first round, and each round starts the next. -/
theorem reusedContextGivesFreshMacs : Obligations.ReusedContextGivesFreshMacs := by
  intro password msgs s
  obtain ⟨s0, hinit, started⟩ := exec_hmacInit_macs .sha256 password s
  obtain ⟨t, hrounds, hresps⟩ := started.of_macRounds msgs
  have resp0 : s0.responses = s.responses ++ [⟨.ok, []⟩] := responses_of_check_passed rfl hinit
  refine ⟨t, (execAll_cons_of_next hinit).trans hrounds, ?_⟩
  rw [hresps, resp0, List.append_assoc]
  rfl

end Sys2Proof.Machine
end

section
/-! SUPPORT. Rejections (60_exceptions.md R171 to R176): which check fails where, and that nothing but the response
comes of it. -/

namespace Sys2Proof.Machine

open Sys2Proof.Claims

variable {s t : State} {i : Instr} {r : Response}

/-- A status other than `OK` comes of the check, and of nothing else. -/
theorem Plan.response_status_eq {p : Plan} {st : Status} (rejection : st ≠ .ok) :
    p.response.status = st ↔ p.check = some st := by
  rw [Plan.response]
  cases p.check with
  | none => simp [rejection.symm]
  | some st' => simp

theorem deriveCheck_ne_errSequence (iter : BitVec 32) (klen : Quad) : deriveCheck iter klen ≠ some .errSequence := by
  rcases deriveCheck_cases iter klen with ⟨_, h⟩ | ⟨_, _, h⟩ | ⟨_, _, h⟩ <;> simp [h]

theorem digestCheck_eq_errSequence {p : DigestPhase} : digestCheck p = some .errSequence ↔ p = .idle := by
  cases p <;> simp [digestCheck]

theorem macCheck_eq_errSequence {p : HmacPhase} :
    macCheck p = some .errSequence ↔ p = .idle ∨ p = .finished := by
  cases p <;> simp [macCheck]

/-- The check that fails with `ERR_SEQUENCE` is the table of R173. -/
theorem plan_check_eq_errSequence (i : Instr) (s : State) :
    (plan i s).check = some .errSequence ↔ OutOfPhase s i := by
  cases i with
  | init | hash | hmacInit | hmac => simp [plan, OutOfPhase]
  | absorb | finalize => exact digestCheck_eq_errSequence
  | hmacUpdate | hmacFinish => exact macCheck_eq_errSequence
  | hmacReset => simp [plan, OutOfPhase, keyCheck_eq_some]
  | deriveKey a b iter klen => exact iff_of_false (deriveCheck_ne_errSequence iter klen) id

/-- A command that answers with a rejection did nothing but answer (R176). -/
theorem exec_eq_responded_of_rejected (h : exec i s = .next t) (resp : t.responses = s.responses ++ [r])
    (rejected : r.status ≠ .ok) : t = responded s r.status [] := by
  obtain ⟨t', ht', resp', -⟩ := exec_answers i s
  obtain rfl : t = t' := by simpa [h] using ht'
  obtain rfl : r = (plan i s).response := by simpa [resp] using resp'
  have failed : exec i s = .next (responded s (plan i s).response.status []) :=
    exec_of_check_failed ((Plan.response_status_eq rejected).mp rfl)
  simpa [h] using failed

/-- A request that is answered with a rejection, legal or not, did nothing but that (R172, R176). -/
theorem answered_eq_responded_of_rejected {q : Request} (h : answered q s = .next t)
    (resp : t.responses = s.responses ++ [r]) (rejected : r.status ≠ .ok) : t = responded s r.status [] := by
  cases hdecode : decode q with
  | ok i => exact exec_eq_responded_of_rejected ((answered_of_decode hdecode s).symm.trans h) resp rejected
  | error e =>
    rw [answered_of_illegal hdecode] at h
    obtain rfl : s.deliver ⟨.errIllegalCmd, []⟩ = t := by simpa using h
    obtain rfl : ⟨.errIllegalCmd, []⟩ = r := by simpa using resp
    rfl

/-- Settles O7: the byte does not decode, and the step answers it so. -/
theorem illegalByteIsRejected : Obligations.IllegalByteIsRejected := by
  intro s r rest hmoves illegal
  obtain ⟨e, hdecode⟩ := decode_error_of_not_legal illegal
  calc step s
    _ = answered r (s.withMoves rest) := step_of_command hmoves
    _ = .next ((s.withMoves rest).deliver ⟨.errIllegalCmd, []⟩) := answered_of_illegal hdecode _

/-- Settles O13: the status is `ERR_SEQUENCE` where the check is. -/
theorem sequenceRejectionsExactly : Obligations.SequenceRejectionsExactly := by
  intro i s
  obtain ⟨t, ht, resp, -⟩ := exec_answers i s
  exact ⟨t, _, ht, resp, (Plan.response_status_eq (by decide)).trans (plan_check_eq_errSequence i s)⟩

/-- Settles O15: for commands, and for the requests that a step takes. -/
theorem rejectionChangesNothing : Obligations.RejectionChangesNothing :=
  ⟨fun _ _ _ _ h resp rejected => exec_eq_responded_of_rejected h resp rejected,
    fun _ _ _ _ _ hmoves h resp rejected =>
      answered_eq_responded_of_rejected ((step_of_command hmoves).symm.trans h) resp rejected⟩

/-- No status has a code above the last of R171. -/
theorem Status.code_le (st : Status) : (Status.code st).toNat ≤ 4 := by cases st <;> decide

/-- Settles O5: the codes are the table of R171. -/
theorem statusCodes : Obligations.StatusCodes := ⟨rfl, rfl, rfl, rfl, rfl, Status.code_le⟩

/-- Settles O14: the check by `ITER`, and then by `KLEN`. -/
theorem deriveKeyRejections : Obligations.DeriveKeyRejections := fun _ _ _ _ _ =>
  ⟨fun hiter => exec_of_check_failed (deriveCheck_of_iter_zero hiter),
    fun hiter hklen => exec_of_check_failed (deriveCheck_of_klen_large hiter hklen)⟩

end Sys2Proof.Machine
end

section
/-! SUPPORT. Waiting, reset and termination (70_reset_and_hazards.md R190, R191, R201): every step goes on. -/

namespace Sys2Proof.Machine

variable {s : State}

/-- Settles O10: a step takes the next move, and there is none. -/
theorem engineWaitsForCommand : Obligations.EngineWaitsForCommand := fun _ hmoves => takeMove_of_no_moves hmoves

/-- A step whose next move is a reset leaves both contexts as they are after reset (log entry 5). -/
theorem step_of_reset {rest : List HostMove} (hmoves : s.moves = .reset :: rest) :
    step s = .next (((s.withMoves rest).withDctx Dctx.atReset).withHctx Hctx.atReset) :=
  takeMove_of_reset hmoves

/-- Settles O9: the contexts after a reset are idle, and nothing is delivered. -/
theorem hostResetPutsEngineIdle : Obligations.HostResetPutsEngineIdle := fun _ _ hmoves =>
  ⟨_, step_of_reset hmoves, rfl, rfl, rfl, rfl⟩

/-- Every step goes on, whatever the host's next move is. -/
theorem exists_step_eq_next (s : State) : ∃ t, step s = .next t := by
  cases hmoves : s.moves with
  | nil => exact ⟨s, takeMove_of_no_moves hmoves⟩
  | cons move rest =>
    cases move with
    | reset => exact ⟨_, step_of_reset hmoves⟩
    | command r =>
      obtain ⟨t, -, ht, -⟩ := answered_answers r (s.withMoves rest)
      exact ⟨t, (step_of_command hmoves).trans ht⟩

/-- Settles O12: a command's one response is the planned one, and every move is answered. -/
theorem everyCommandAnswersOnce : Obligations.EveryCommandAnswersOnce := by
  refine ⟨fun i s => ?_, exists_step_eq_next⟩
  obtain ⟨t, ht, hresp, hmoves⟩ := exec_answers i s
  exact ⟨t, _, ht, hresp, hmoves⟩

end Sys2Proof.Machine
end

section
/-! SUPPORT. The work of every command (70_reset_and_hazards.md R200, 42_pbkdf2.md R161): the counted run ends as the
command does, a failed check leaves nothing to evaluate, and the counts are added up function by function. -/

namespace Sys2Proof.Machine

open Sys2Proof.Claims

/-! ### The counted run and the command -/

@[simp] theorem countedChecked_none (s : State) (run : Counted Result) : countedChecked none s run = run := rfl

@[simp] theorem countedChecked_some (st : Status) (s : State) (run : Counted Result) :
    countedChecked (some st) s run = .given (reject st s) := rfl

/-- A counted check decides as the check does. -/
@[simp] theorem countedChecked_value (check : Option Status) (s : State) (run : Counted Result) :
    (countedChecked check s run).value = checked check s run.value := by
  cases check <;> rfl

@[simp] theorem countedAbsorb_value (c : DigestCtx) (data : List Byte) :
    (countedAbsorb c data).value = ctxAbsorb c data := by
  rw [countedAbsorb_eq]

@[simp] theorem countedFinalize_value (c : DigestCtx) : (countedFinalize c).value = ctxFinalize c := by
  rw [countedFinalize_eq]

/-- Counting a command's evaluations does not change how it ends. -/
theorem countedExec_value (i : Instr) (s : State) : (countedExec i s).value = exec i s := by
  cases i with
  | init v => rfl
  | absorb b => simp [countedExec, exec, execAbsorb]
  | finalize => simp [countedExec, exec, execFinalize]
  | hash v b => simp [countedExec, exec, execHash]
  | hmacInit v a => simp [countedExec, exec, execHmacInit, keyIpad, keyOpad]
  | hmacUpdate b => simp [countedExec, exec, execHmacUpdate]
  | hmacFinish => simp [countedExec, exec, execHmacFinish]
  | hmacReset => simp [countedExec, exec, execHmacReset]
  | hmac v a b => simp [countedExec, exec, execHmac]
  | deriveKey a b iter klen => simp [countedExec, exec, execDeriveKey]

/-- The check of a counted command is the command's own, and comes before all that is counted. -/
theorem countedExec_eq_countedChecked (i : Instr) (s : State) :
    ∃ run, countedExec i s = countedChecked (plan i s).check s run := by
  cases i <;> exact ⟨_, rfl⟩

/-- A rejected command evaluates nothing (60_exceptions.md R176). -/
theorem countedExec_of_check_failed {i : Instr} {s : State} {st : Status} (h : (plan i s).check = some st) :
    countedExec i s = .given (reject st s) := by
  obtain ⟨run, hrun⟩ := countedExec_eq_countedChecked i s
  rw [hrun, h, countedChecked_some]

/-- A command that answers with a rejection is one whose check failed. -/
theorem check_failed_of_rejected {i : Instr} {s t : State} {r : Response} (h : exec i s = .next t)
    (resp : t.responses = s.responses ++ [r]) (rejected : r.status ≠ .ok) : (plan i s).check = some r.status := by
  obtain ⟨t', ht', resp', -⟩ := exec_answers i s
  obtain rfl : t = t' := by simpa [h] using ht'
  obtain rfl : r = (plan i s).response := by simpa [resp] using resp'
  exact (Plan.response_status_eq rejected).mp rfl

/-! ### The evaluations of `Compress` -/

@[simp] theorem countedAbsorb_compressions (c : DigestCtx) (data : List Byte) :
    (countedAbsorb c data).compressions = (c.buffer.length + data.length) / 64 := by
  rw [countedAbsorb_eq]

/-- The row `FINALIZE` of R200. -/
theorem countedFinalize_compressions {c : DigestCtx} (bounded : c.Bounded) :
    (countedFinalize c).compressions = finalBlocks c.buffer.length :=
  congrArg Counted.compressions (countedFinalize_of_bounded bounded)

/-- A hash is the absorbing of whole blocks, and the finalizing of the rest (R200). -/
theorem hashBlocks_eq (n : Nat) : hashBlocks n = n / 64 + finalBlocks (n % 64) := by
  unfold hashBlocks finalBlocks
  split <;> rfl

/-- The row `HASH` of R200. -/
theorem countedHash_compressions (m : List Byte) (v : Variant) :
    (countedHash m v).compressions = hashBlocks m.length := by
  rw [countedHash, Counted.andThen_compressions, countedAbsorb_value,
    countedFinalize_compressions (ctxAbsorb_bounded _ _), hashBlocks_eq]
  simp

/-- The `ipad` block is the one that starting a MAC evaluates (R200). -/
theorem countedStart_compressions {ipad : List Byte} (hlen : ipad.length = 64) (v : Variant) :
    (countedStart ipad v).compressions = 1 := by
  simp [countedStart, hlen]

/-- A key takes what the row `HMAC_INIT` of R200 counts besides the `ipad` block: nothing where it fits into a block. -/
theorem countedBlockKey_compressions (key : List Byte) (v : Variant) :
    (countedBlockKey key v).compressions + 1 = keyBlocks key.length := by
  rw [countedBlockKey, Counted.map_compressions, keyBlocks]
  by_cases long : key.length > 64
  · rw [if_pos long, if_neg (Nat.not_le.mpr long), countedHash_compressions, Nat.add_comm]
  · rw [if_neg long, if_pos (Nat.not_lt.mp long), Counted.given_compressions]

/-- A whole block leaves nothing in the buffer of a fresh context. -/
theorem hmacStart_buffer_length {ipad : List Byte} (hlen : ipad.length = 64) (v : Variant) :
    (hmacStart ipad v).buffer.length = 0 := by
  simp [hmacStart, hlen]

/-- The row `HMAC_FINISH` of R200: the end of the inner hash, the `opad` block, and one block with the inner digest. -/
theorem countedFinish_compressions {inner : DigestCtx} {opad : List Byte} (bounded : inner.Bounded)
    (hlen : opad.length = 64) (v : Variant) :
    (countedFinish inner opad v).compressions = finalBlocks inner.buffer.length + 2 := by
  have hdigest := dsize_le inner.variant
  simp only [countedFinish, Counted.andThen_compressions, countedFinalize_value, countedAbsorb_value,
    countedAbsorb_compressions, countedFinalize_compressions bounded,
    countedFinalize_compressions (ctxAbsorb_bounded _ _), ctxAbsorb_buffer_length, ctxInit_buffer, List.length_nil,
    ctxFinalize_length, hlen, Nat.zero_add, Nat.mod_self]
  have hlast : finalBlocks (dsize inner.variant % 64) = 1 := if_pos (by omega)
  omega

/-- The row `HMAC` of R200: the key and the `ipad` block, the message, and the end. -/
theorem countedHmac_compressions (key msg : List Byte) (v : Variant) :
    (countedHmac key msg v).compressions =
      keyBlocks key.length + msg.length / 64 + (finalBlocks (msg.length % 64) + 2) := by
  have hpad (x : Byte) : ((blockKey key v).map (x ^^^ ·)).length = 64 := by simp
  simp only [countedHmac, Counted.asMac_compressions, Counted.andThen_compressions, countedBlockKey_value,
    countedStart_value, countedAbsorb_value, countedStart_compressions (hpad _), countedAbsorb_compressions,
    countedFinish_compressions (ctxAbsorb_bounded _ _) (hpad _), ctxAbsorb_buffer_length,
    hmacStart_buffer_length (hpad _), Nat.zero_add, ← countedBlockKey_compressions key v]
  omega

/-! ### The table -/

section
variable {s : State}

theorem countedExec_absorb (b : List Byte) (active : s.dctx.phase = .active) :
    (countedExec (.absorb b) s).compressions = (s.dctx.ctx.buffer.length + b.length) / 64 := by
  rw [countedExec, digestCheck_eq_none.mpr active, countedChecked_none, Counted.map_compressions,
    countedAbsorb_compressions]

theorem countedExec_finalize (active : s.dctx.phase = .active) (bounded : s.dctx.ctx.Bounded) :
    (countedExec .finalize s).compressions = finalBlocks s.dctx.ctx.buffer.length := by
  rw [countedExec, digestCheck_eq_none.mpr active, countedChecked_none, Counted.map_compressions,
    countedFinalize_compressions bounded]

theorem countedExec_hmacInit (v : Variant) (a : List Byte) :
    (countedExec (.hmacInit v a) s).compressions = keyBlocks a.length := by
  rw [countedExec, Counted.andThen_compressions, Counted.map_compressions,
    countedStart_compressions (by simp), countedBlockKey_compressions]

theorem countedExec_hmacUpdate (b : List Byte) (active : s.hctx.phase = .active) :
    (countedExec (.hmacUpdate b) s).compressions = (s.hctx.inner.buffer.length + b.length) / 64 := by
  rw [countedExec, macCheck_eq_none.mpr active, countedChecked_none, Counted.map_compressions,
    countedAbsorb_compressions]

theorem countedExec_hmacFinish (active : s.hctx.phase = .active) (hopad : s.hctx.opad.length = 64)
    (bounded : s.hctx.inner.Bounded) :
    (countedExec .hmacFinish s).compressions = finalBlocks s.hctx.inner.buffer.length + 2 := by
  rw [countedExec, macCheck_eq_none.mpr active, countedChecked_none, Counted.map_compressions,
    countedFinish_compressions bounded hopad]

theorem countedExec_hmacReset (keyed : s.hctx.phase ≠ .idle) (hipad : s.hctx.ipad.length = 64) :
    (countedExec .hmacReset s).compressions = 1 := by
  rw [countedExec, keyCheck_eq_none.mpr keyed, countedChecked_none, Counted.map_compressions,
    countedStart_compressions hipad]

/-- R161: `ceil(KLEN / 32)` blocks of `ITER` MACs each. -/
theorem countedExec_deriveKey_macs (a b : List Byte) {iter : BitVec 32} {klen : Quad} (hiter : iter ≠ 0)
    (hklen : klen.toNat ≤ Config.klenMax) :
    (countedExec (.deriveKey a b iter klen) s).macs = (klen.toNat + 31) / 32 * iter.toNat := by
  have positive : 1 ≤ iter.toNat := Nat.pos_of_ne_zero (BitVec.toNat_ne_iff_ne.mpr hiter)
  rw [countedExec, deriveCheck_of_allowed hiter hklen, countedChecked_none, Counted.map_macs,
    countedPbkdf2_macs a b _ positive]

end

/-- Settles O51: the value, the rejections, and the table of R200 row by row. -/
theorem workCounts : Obligations.WorkCounts := by
  refine ⟨countedExec_value, fun i s t r h resp rejected => ?_, fun _ _ => rfl,
    fun _ keyed hipad => countedExec_hmacReset keyed hipad,
    fun b _ active => countedExec_absorb b active,
    fun b _ active => countedExec_hmacUpdate b active,
    fun _ active hlen => countedExec_finalize active (Nat.lt_succ_of_le hlen),
    fun v b _ => countedHash_compressions b v,
    fun v a _ => countedExec_hmacInit v a,
    fun _ active hopad hlen => countedExec_hmacFinish active hopad (Nat.lt_succ_of_le hlen),
    fun v a b _ => countedHmac_compressions a b v,
    fun a b _ _ _ hiter hklen => countedExec_deriveKey_macs a b hiter hklen⟩
  rw [countedExec_of_check_failed (check_failed_of_rejected h resp rejected)]
  exact ⟨rfl, rfl⟩

end Sys2Proof.Machine
end
